-- ==== Sys2Proof/Word.lean ====
section
/-! DEFINITION. The two widths in which the block holds and moves bits (spec/00_scope.md R8, R9). Bit 0 is
the least significant bit. No operation reads a value as signed (R10). -/

namespace Sys2Proof

/-- A data register, the byte view of F, or an instruction port word (R8). -/
abbrev Byte := BitVec 8

/-- A paired view, or the host's write data (R8). -/
abbrev Word := BitVec 16

end Sys2Proof
end

