-- ==== Sys2Proof/Syntax.lean ====
section
/-! DEFINITION. What the host can ask of the block: the instructions, one constructor per row of
spec/opcode_table.json, and the input ports at one clock edge (spec/10_state.md R30). -/

namespace Sys2Proof

/-- The seven 8-bit data registers, which are also the operand selectors (R18, R48). The register `h` is not
the flag F.H (R15). -/
inductive Reg8 where
  | a | b | c | d | e | h | l
  deriving DecidableEq, Repr

/-- The two operations of the alu_result_path (R48, R51). -/
inductive AluOp where
  | add | sub
  deriving DecidableEq, Repr

/-- The 14 rows of the opcode map (spec/30_encoding.md R60). A row has no operand field: its selector is
part of the row (R54). -/
inductive Instr where
  | addAB | addAC | addAD | addAE | addAH | addAL | addAA
  | subB | subC | subD | subE | subH | subL | subA
  deriving DecidableEq, Repr

/-- The levels on the input ports at one rising edge of `clk` (R30). The clock itself has no field: an `Edge`
is one of its rising edges (R13). -/
structure Edge where
  rst       : Bool
  execValid : Bool
  insn      : Byte
  wrEn      : Bool
  wrSel     : BitVec 4
  wrData    : Word
  deriving DecidableEq, Repr

end Sys2Proof
end

