-- ==== Sys2Proof/WellFormed.lean ====
section
/-! DEFINITION. The checks on what the host sends. Every term of `Instr` is well formed, because a row of the
opcode map has no operand field (spec/30_encoding.md R54, R60); what can be ill formed is a port word (R49 to
R52) and the set of levels at one edge (spec/70_reset_and_hazards.md R132, R133). -/

namespace Sys2Proof

/-- The group field `grp` holds `0b10` (R49). -/
def insnGroupOk (w : Byte) : Bool := w.extractLsb' 6 2 == 0b10#2

/-- The operation field `opc` names ADD or SUB (R51). -/
def insnOperationOk (w : Byte) : Bool := w.extractLsb' 3 3 == 0b000#3 || w.extractLsb' 3 3 == 0b010#3

/-- The selector field `rsel` names a register (R50). -/
def insnSelectorOk (w : Byte) : Bool := w.extractLsb' 0 3 != 0b110#3

/-- The word on `insn` is one of the 14 rows of the opcode map (R55, R60). -/
def insnWf (w : Byte) : Bool := insnGroupOk w && insnOperationOk w && insnSelectorOk w

/-- `exec_valid` and `wr_en` are not both 1 (R132). -/
def Edge.noCollision (e : Edge) : Bool := !(e.execValid && e.wrEn)

/-- A host write names a target: `wr_sel` is at most 0xB (R84, R133). -/
def Edge.writeSelectOk (e : Edge) : Bool := !e.wrEn || decide (e.wrSel.toNat ≤ 0xB)

/-- The edge is within the interface contract (R132, R133). At an edge with `rst = 1` every other input is
ignored (R128), so no other duty applies. -/
def Edge.wf (e : Edge) : Bool := e.rst || (e.noCollision && e.writeSelectOk)

end Sys2Proof
end

