-- ==== Sys2Proof/Decode.lean ====
section
/-! DEFINITION. The decoder of the instruction port word, total on all 256 words (spec/30_encoding.md R49 to
R52), and the encoder after it. -/

namespace Sys2Proof

/-- Why a word does not decode. Each is an unimplemented instruction (R55), which the machine runs as R112
says; none of them stops it. -/
inductive DecodeReject where
  /-- `grp` is not `0b10` (R49). -/
  | wrongGroup
  /-- `rsel` is `0b110`, which names no register (R50). -/
  | noSelector
  /-- `opc` is reserved (R51). -/
  | reservedOperation
  deriving DecidableEq, Repr

/-- `insn[7:6]` (R49). -/
def grpField (w : Byte) : BitVec 2 := w.extractLsb' 6 2

/-- `insn[5:3]` (R49). -/
def opcField (w : Byte) : BitVec 3 := w.extractLsb' 3 3

/-- `insn[2:0]` (R49). -/
def rselField (w : Byte) : BitVec 3 := w.extractLsb' 0 3

/-- The selector codes of R50. -/
def selector (rsel : BitVec 3) : Option Reg8 :=
  match rsel.toNat with
  | 0 => some .b
  | 1 => some .c
  | 2 => some .d
  | 3 => some .e
  | 4 => some .h
  | 5 => some .l
  | 6 => none
  | _ => some .a

/-- The operation codes of R51. -/
def operation (opc : BitVec 3) : Option AluOp :=
  match opc.toNat with
  | 0 => some .add
  | 2 => some .sub
  | _ => none

/-- `decode` of R52: the pair `(op, sel)`, or the reason there is none. The group and the selector are checked
before the operation, as R52 writes it. -/
def decodePair (w : Byte) : Except DecodeReject (AluOp × Reg8) :=
  if grpField w = 0b10#2 then
    match selector (rselField w), operation (opcField w) with
    | none, _           => .error .noSelector
    | some _, none      => .error .reservedOperation
    | some r, some op   => .ok (op, r)
  else .error .wrongGroup

/-- The row of the opcode map for a pair `(op, sel)` (R48, R60). -/
def Instr.ofPair : AluOp → Reg8 → Instr
  | .add, .b => .addAB
  | .add, .c => .addAC
  | .add, .d => .addAD
  | .add, .e => .addAE
  | .add, .h => .addAH
  | .add, .l => .addAL
  | .add, .a => .addAA
  | .sub, .b => .subB
  | .sub, .c => .subC
  | .sub, .d => .subD
  | .sub, .e => .subE
  | .sub, .h => .subH
  | .sub, .l => .subL
  | .sub, .a => .subA

/-- The instruction a port word stands for, or why it stands for none (R52). -/
def decode (w : Byte) : Except DecodeReject Instr :=
  match decodePair w with
  | .ok (op, r) => .ok (Instr.ofPair op r)
  | .error why  => .error why

/-- The operation of a row (R48). -/
def Instr.op : Instr → AluOp
  | .addAB | .addAC | .addAD | .addAE | .addAH | .addAL | .addAA => .add
  | .subB | .subC | .subD | .subE | .subH | .subL | .subA => .sub

/-- The operand selector of a row (R48). -/
def Instr.sel : Instr → Reg8
  | .addAB | .subB => .b
  | .addAC | .subC => .c
  | .addAD | .subD => .d
  | .addAE | .subE => .e
  | .addAH | .subH => .h
  | .addAL | .subL => .l
  | .addAA | .subA => .a

/-- The code of a selector in `rsel` (R50). -/
def selCode : Reg8 → BitVec 3
  | .b => 0b000#3
  | .c => 0b001#3
  | .d => 0b010#3
  | .e => 0b011#3
  | .h => 0b100#3
  | .l => 0b101#3
  | .a => 0b111#3

/-- The code of an operation in `opc` (R51). -/
def opCode : AluOp → BitVec 3
  | .add => 0b000#3
  | .sub => 0b010#3

/-- The port word of an instruction, in format ALU-R (R49): `grp`, `opc`, `rsel` from the high bits down. -/
def encode (i : Instr) : Byte := 0b10#2 ++ opCode i.op ++ selCode i.sel

/-- The port word of a table word: its low 8 bits, of which those above `nbits` are 0. -/
def tableWord (nbits w : Nat) : Byte := BitVec.ofNat 8 (w % 2 ^ nbits)

/-- The instruction the decoder reads from a word numbered as spec/opcode_table.json numbers it. The block's
instructions are one 8-bit word each (R49, R56), so a longer word is none (notes/assumptions/9.md). -/
def decodeTableWord (nbits w : Nat) : Option Instr :=
  if nbits ≤ 8 then
    match decode (tableWord nbits w) with
    | .ok i    => some i
    | .error _ => none
  else none

end Sys2Proof
end

