-- ==== Sys2Proof/Config.lean ====
section
/-! DEFINITION. The implementation parameters `P_WIRED_ADD` and `P_SUB_SELECTORS` (spec/00_scope.md R7). The
spec leaves them open and asks that a model take them as arguments; State holds them as plain data, so that a
claim over all states is a claim over all their values (DESIGN CHOICE, notes/assumptions/1.md, safe). No value
of this block is left undefined, so there is no free value here. -/

namespace Sys2Proof

/-- A subset of {A, B, C, D, E, H, L}: one membership bit a register, so that equal subsets are equal data. -/
structure SelectorSet where
  a : Bool
  b : Bool
  c : Bool
  d : Bool
  e : Bool
  h : Bool
  l : Bool
  deriving DecidableEq, Repr

/-- The empty set of selectors. -/
def SelectorSet.empty : SelectorSet := ⟨false, false, false, false, false, false, false⟩

/-- All seven selectors. -/
def SelectorSet.full : SelectorSet := ⟨true, true, true, true, true, true, true⟩

/-- The parameters of R7. -/
structure Params where
  /-- `P_WIRED_ADD`: the selectors for which `ADD A,r` changes state. -/
  wiredAdd     : SelectorSet
  /-- `P_SUB_SELECTORS`: the selectors for which `SUB r` changes state. -/
  subSelectors : SelectorSet
  deriving DecidableEq, Repr

/-- The values of this hardware: only `ADD A,C` is wired, and there is no subtractor (R7). -/
def Params.default : Params where
  wiredAdd     := { SelectorSet.empty with c := true }
  subSelectors := SelectorSet.empty

end Sys2Proof
end

