-- ==== Sys2Proof/Machine/State.lean ====
section
/-! DEFINITION. The state of the block (spec/10_state.md R18 to R26), what the host will drive, and why a step
can stop. -/

namespace Sys2Proof.Machine

/-- The four flag bits of F (R21). F has no other storage: bits 3..0 of its byte view are not state. -/
structure Flags where
  z  : Bool
  n  : Bool
  h  : Bool
  cy : Bool
  deriving DecidableEq, Repr

/-- Which of the outcomes `Done` and `Unimplemented` of R14 an edge had. Both give a state; R14 asks that they
be kept apart (notes/assumptions/3.md). -/
inductive Report where
  | done
  | unimplemented
  deriving DecidableEq, Repr

/-- The block, its parameters, and the host's coming inputs. The first eight fields are all the storage the
block has (R18, R21, R24 to R26); the other four are the model's own. -/
structure State where
  a : Byte
  b : Byte
  c : Byte
  d : Byte
  e : Byte
  h : Byte
  l : Byte
  f : Flags
  /-- The implementation parameters (R7); no step writes them (notes/assumptions/1.md). -/
  params : Params
  /-- Whether a reset edge has happened. While it is `false` the registers and flags are unspecified, and every
  read of them is refused (R34, R131; notes/assumptions/4.md). -/
  resetSeen : Bool
  /-- What the host drives at the coming edges, the next one first (R17, R30; notes/assumptions/2.md). -/
  inputs : List Edge
  /-- The outcome of the last edge (R14; notes/assumptions/3.md). -/
  report : Report
  deriving DecidableEq, Repr

/-- Why the machine would stop with a fault. There is none: the block raises no exception, and every operation
is total (R116; notes/assumptions/7.md, safe). -/
inductive Fault where
  deriving DecidableEq, Repr

/-- Why a step has no meaning: the outcome `Refused` of R14. Each is safe: the model stops where the spec
specifies nothing for the model. -/
inductive Refusal where
  /-- An instruction without a meaning in this model; no arm of `exec` raises it. Safe. -/
  | notModelled (mnemonic : String)
  /-- A use of the block before its first reset edge (R34, R131). Raised by every step but reset, by every
  instruction, and by a read of the outputs. Safe. -/
  | notYetReset
  /-- `exec_valid` and `wr_en` at one edge without `rst` (R132). Raised by the step. Safe. -/
  | edgeCollision
  /-- A host write with `wr_sel` 0xC to 0xF (R84). Raised by the host write. Safe. -/
  | reservedWriteSelect (wrSel : BitVec 4)
  deriving DecidableEq, Repr

/-- How a step ends. -/
abbrev StepOutcome := Host.Outcome State Fault Refusal

/-- All four flags clear: the reset value of F (R33). -/
def Flags.clear : Flags := ⟨false, false, false, false⟩

/-- The block right after a reset edge (R33, R128), with the parameters of R7 and a host that has not yet
decided what to drive. -/
def State.reset : State where
  a := 0x00#8
  b := 0x00#8
  c := 0x00#8
  d := 0x00#8
  e := 0x00#8
  h := 0x00#8
  l := 0x00#8
  f := Flags.clear
  params := Params.default
  resetSeen := true
  inputs := []
  report := .done

end Sys2Proof.Machine
end

