-- ==== Sys2Proof/Machine/Flags.lean ====
section
/-! DEFINITION. The flags_register's two byte conversions (spec/40_flags_register.md R61, R62) and the flags
of the alu_result_path (spec/42_alu_result_path.md R90, R92). These are the only places where a flag is
computed. -/

namespace Sys2Proof.Machine

/-- `to_byte` (R61): bit 7 = Z, bit 6 = N, bit 5 = H, bit 4 = CY, bits 3..0 = 0. -/
def Flags.toByte (f : Flags) : Byte :=
  BitVec.ofBool f.z ++ BitVec.ofBool f.n ++ BitVec.ofBool f.h ++ BitVec.ofBool f.cy ++ 0b0000#4

/-- `from_byte` (R62): the inverse mapping, with the low nibble discarded. -/
def Flags.fromByte (v : Byte) : Flags where
  z  := v.getLsbD 7
  n  := v.getLsbD 6
  h  := v.getLsbD 5
  cy := v.getLsbD 4

/-- The low nibble of a byte (the glossary of spec/00_scope.md: bits 3..0). -/
def lowNibble (v : Byte) : BitVec 4 := v.extractLsb' 0 4

/-- The 9-bit sum of R90. -/
def sum9 (a v : Byte) : BitVec 9 := a.zeroExtend 9 + v.zeroExtend 9

/-- The 8-bit sum (R90). -/
def addResult (a v : Byte) : Byte := (sum9 a v).extractLsb' 0 8

/-- The flags of an addition (R90). -/
def addFlags (a v : Byte) : Flags where
  z  := addResult a v == 0x00#8
  n  := false
  h  := ((lowNibble a).zeroExtend 5 + (lowNibble v).zeroExtend 5).getLsbD 4
  cy := (sum9 a v).getLsbD 8

/-- The 8-bit difference (R92). -/
def subResult (a v : Byte) : Byte := a - v

/-- The flags of a subtraction (R92, which the spec gives from general knowledge; notes/assumptions/8.md). -/
def subFlags (a v : Byte) : Flags where
  z  := subResult a v == 0x00#8
  n  := true
  h  := (lowNibble a).ult (lowNibble v)
  cy := a.ult v

end Sys2Proof.Machine
end

