-- ==== Sys2Proof/Machine/Operands.lean ====
section
/-! DEFINITION. Where an instruction's operands come from (spec/30_encoding.md R50, R54), whether it is wired
(R53), and the alu_result_path that they feed (spec/42_alu_result_path.md R88). The only operand form is an
8-bit register read whole (R54). -/

namespace Sys2Proof.Machine

/-- `r[X]`: the value of a data register (R12). -/
def State.reg (s : State) : Reg8 → Byte
  | .a => s.a
  | .b => s.b
  | .c => s.c
  | .d => s.d
  | .e => s.e
  | .h => s.h
  | .l => s.l

/-- Membership of a selector in a parameter set (R7). -/
def inSet (p : SelectorSet) : Reg8 → Bool
  | .a => p.a
  | .b => p.b
  | .c => p.c
  | .d => p.d
  | .e => p.e
  | .h => p.h
  | .l => p.l

/-- Whether a pair `(op, sel)` is wired under the parameters (R7, R53). -/
def wired (p : Params) : AluOp → Reg8 → Bool
  | .add, r => inSet p.wiredAdd r
  | .sub, r => inSet p.subSelectors r

/-- `implemented(insn)` (R53). -/
def implemented (p : Params) (w : Byte) : Bool :=
  match decode w with
  | .ok i    => wired p i.op i.sel
  | .error _ => false

/-- The outputs of the alu_result_path: the result and the four flags (R88). -/
structure AluOut where
  res   : Byte
  flags : Flags
  deriving DecidableEq, Repr

/-- `add(a, v)` (R90). -/
def aluAdd (a v : Byte) : AluOut := ⟨addResult a v, addFlags a v⟩

/-- `sub(a, v)` (R92). -/
def aluSub (a v : Byte) : AluOut := ⟨subResult a v, subFlags a v⟩

/-- The alu_result_path (R88). It reads its two operands and no flag. -/
def alu : AluOp → Byte → Byte → AluOut
  | .add, a, v => aluAdd a v
  | .sub, a, v => aluSub a v

end Sys2Proof.Machine
end

