-- ==== Sys2Proof/Machine/Ops.lean ====
section
/-! DEFINITION. The shared operations over the state: register and flag writes, the paired views, reset, the
execute control. The block has no memory (spec/20_memory.md R35), and it takes no exception and returns from
none (spec/60_exceptions.md R116, R120, R121), so no operation for those stands here. -/

namespace Sys2Proof.Machine

/-- `r[X] <- v` (R12). -/
def State.setReg (s : State) : Reg8 → Byte → State
  | .a, v => { s with a := v }
  | .b, v => { s with b := v }
  | .c, v => { s with c := v }
  | .d, v => { s with d := v }
  | .e, v => { s with e := v }
  | .h, v => { s with h := v }
  | .l, v => { s with l := v }

/-- `F <- (z, n, h, c)`: all four flags at once (R12, R27). -/
def State.setFlags (s : State) (f : Flags) : State := { s with f := f }

/-- The edge ends with this outcome (R14). -/
def State.setReport (s : State) (r : Report) : State := { s with report := r }

/-- The high byte of a 16-bit value (R37). -/
def highByte (v : Word) : Byte := v.extractLsb' 8 8

/-- The low byte of a 16-bit value (R37, R58). -/
def lowByte (v : Word) : Byte := v.extractLsb' 0 8

/-- `Fbyte`: the byte view of F (R22). -/
def State.fbyte (s : State) : Byte := s.f.toByte

/-- The view AF (R23, R68). -/
def State.af (s : State) : Word := s.a ++ s.fbyte

/-- The view BC (R23, R69). -/
def State.bc (s : State) : Word := s.b ++ s.c

/-- The view DE (R23, R70). -/
def State.de (s : State) : Word := s.d ++ s.e

/-- The view HL (R23, R71). -/
def State.hl (s : State) : Word := s.h ++ s.l

/-- Whatever reads or writes the block needs a reset edge before it (R34, R131). -/
def afterReset (s : State) (act : State → StepOutcome) : StepOutcome :=
  if s.resetSeen then act s else .refused .notYetReset

/-- A reset edge: every register and flag takes its reset value (R33, R128). It needs nothing before it. -/
def State.resetAll (s : State) : State :=
  { State.reset with params := s.params, inputs := s.inputs }

/-- The commit of a wired instruction: the result to A and the four flags to F, at one edge (R97). -/
def State.commit (s : State) (out : AluOut) : State :=
  ((s.setReg .a out.res).setFlags out.flags).setReport .done

/-- An execute step whose instruction is not implemented: no register and no flag changes, and the outcome is
`Unimplemented` (R112, R14). -/
def unimplementedStep (s : State) : StepOutcome :=
  afterReset s fun s => .next (s.setReport .unimplemented)

/-- The execute step of a decoded pair `(op, sel)` (R94). Both operands are read before anything is written
(R135). -/
def executePair (op : AluOp) (r : Reg8) (s : State) : StepOutcome :=
  afterReset s fun s =>
    if wired s.params op r then .next (s.commit (alu op s.a (s.reg r)))
    else .next (s.setReport .unimplemented)

/-- An edge with none of `rst`, `exec_valid` and `wr_en`: no state changes (R95). -/
def idleStep (s : State) : StepOutcome :=
  afterReset s fun s => .next (s.setReport .done)

end Sys2Proof.Machine
end

