-- ==== Sys2Proof/Machine/Add.lean ====
section
/-! DEFINITION. The meanings of `ADD A,r`, one per row (spec/43_execute.md R98 to R104). Each is wired where its
selector is in `P_WIRED_ADD`, and unimplemented otherwise (R112). -/

namespace Sys2Proof.Machine

/-- `ADD A,B` (R98). -/
def execAddAB (s : State) : StepOutcome := executePair .add .b s

/-- `ADD A,C` (R99). -/
def execAddAC (s : State) : StepOutcome := executePair .add .c s

/-- `ADD A,D` (R100). -/
def execAddAD (s : State) : StepOutcome := executePair .add .d s

/-- `ADD A,E` (R101). -/
def execAddAE (s : State) : StepOutcome := executePair .add .e s

/-- `ADD A,H` (R102). -/
def execAddAH (s : State) : StepOutcome := executePair .add .h s

/-- `ADD A,L` (R103). -/
def execAddAL (s : State) : StepOutcome := executePair .add .l s

/-- `ADD A,A` (R104). -/
def execAddAA (s : State) : StepOutcome := executePair .add .a s

end Sys2Proof.Machine
end

