-- ==== Sys2Proof/Machine/Sub.lean ====
section
/-! DEFINITION. The meanings of `SUB r`, one per row (spec/43_execute.md R105 to R111). Each is wired where its
selector is in `P_SUB_SELECTORS`, and unimplemented otherwise (R112). -/

namespace Sys2Proof.Machine

/-- `SUB B` (R105). -/
def execSubB (s : State) : StepOutcome := executePair .sub .b s

/-- `SUB C` (R106). -/
def execSubC (s : State) : StepOutcome := executePair .sub .c s

/-- `SUB D` (R107). -/
def execSubD (s : State) : StepOutcome := executePair .sub .d s

/-- `SUB E` (R108). -/
def execSubE (s : State) : StepOutcome := executePair .sub .e s

/-- `SUB H` (R109). -/
def execSubH (s : State) : StepOutcome := executePair .sub .h s

/-- `SUB L` (R110). -/
def execSubL (s : State) : StepOutcome := executePair .sub .l s

/-- `SUB A` (R111). -/
def execSubA (s : State) : StepOutcome := executePair .sub .a s

end Sys2Proof.Machine
end

