-- ==== Sys2Proof/Machine/HostAccess.lean ====
section
/-! DEFINITION. The register file's accessors (spec/41_register_file.md): one definition per write rule, the
write-select decoding (spec/30_encoding.md R57), and the output ports (spec/10_state.md R31). -/

namespace Sys2Proof.Machine

/-- Write A (R72). -/
def writeA (v : Word) (s : State) : State := s.setReg .a (lowByte v)

/-- Write F, through `from_byte` (R73). -/
def writeF (v : Word) (s : State) : State := s.setFlags (Flags.fromByte (lowByte v))

/-- Write B (R74). -/
def writeB (v : Word) (s : State) : State := s.setReg .b (lowByte v)

/-- Write C (R75). -/
def writeC (v : Word) (s : State) : State := s.setReg .c (lowByte v)

/-- Write D (R76). -/
def writeD (v : Word) (s : State) : State := s.setReg .d (lowByte v)

/-- Write E (R77). -/
def writeE (v : Word) (s : State) : State := s.setReg .e (lowByte v)

/-- Write H (R78). -/
def writeH (v : Word) (s : State) : State := s.setReg .h (lowByte v)

/-- Write L (R79). -/
def writeL (v : Word) (s : State) : State := s.setReg .l (lowByte v)

/-- `set_af` (R80): the low byte goes through `from_byte`. -/
def writeAF (v : Word) (s : State) : State := (s.setReg .a (highByte v)).setFlags (Flags.fromByte (lowByte v))

/-- `set_bc` (R81). -/
def writeBC (v : Word) (s : State) : State := (s.setReg .b (highByte v)).setReg .c (lowByte v)

/-- `set_de` (R82). -/
def writeDE (v : Word) (s : State) : State := (s.setReg .d (highByte v)).setReg .e (lowByte v)

/-- `set_hl` (R83). -/
def writeHL (v : Word) (s : State) : State := (s.setReg .h (highByte v)).setReg .l (lowByte v)

/-- The write rule that `wr_sel` selects (R57); none for the reserved codes 0xC to 0xF. -/
def writeRule (wrSel : BitVec 4) (v : Word) (s : State) : Option State :=
  match wrSel.toNat with
  | 0x0 => some (writeA v s)
  | 0x1 => some (writeF v s)
  | 0x2 => some (writeB v s)
  | 0x3 => some (writeC v s)
  | 0x4 => some (writeD v s)
  | 0x5 => some (writeE v s)
  | 0x6 => some (writeH v s)
  | 0x7 => some (writeL v s)
  | 0x8 => some (writeAF v s)
  | 0x9 => some (writeBC v s)
  | 0xA => some (writeDE v s)
  | 0xB => some (writeHL v s)
  | _   => none

/-- A host write edge (R66). A reserved select is outside the contract (R84; notes/assumptions/6.md, safe). -/
def hostWrite (wrSel : BitVec 4) (v : Word) (s : State) : StepOutcome :=
  afterReset s fun s =>
    match writeRule wrSel v s with
    | some t => .next (t.setReport .done)
    | none   => .refused (.reservedWriteSelect wrSel)

/-- The levels at an edge at which the host drives nothing: every input is 0 (spec/95_test_vectors.md part 3;
notes/assumptions/2.md). -/
def idleEdge : Edge := ⟨false, false, 0x00#8, false, 0x0#4, 0x0000#16⟩

/-- What the host drives at the next edge (R30); nothing once its list is used up (notes/assumptions/2.md). -/
def State.edge (s : State) : Edge := s.inputs.headD idleEdge

/-- The state with that edge taken off the host's list. -/
def State.advance (s : State) : State := { s with inputs := s.inputs.tail }

/-- The output `unimpl` in the cycle before the next edge: `exec_valid & ~rst & ~wr_en & ~implemented(insn)`
(R31). It is combinational and holds nothing (R117). -/
def State.unimpl (s : State) : Bool :=
  s.edge.execValid && !s.edge.rst && !s.edge.wrEn && !implemented s.params s.edge.insn

/-- The output ports of R31. -/
structure Outputs where
  aQ    : Byte
  bQ    : Byte
  cQ    : Byte
  dQ    : Byte
  eQ    : Byte
  hQ    : Byte
  lQ    : Byte
  fQ    : Byte
  afQ   : Word
  bcQ   : Word
  deQ   : Word
  hlQ   : Word
  flagZ : Bool
  flagN : Bool
  flagH : Bool
  flagC : Bool
  unimpl : Bool
  deriving DecidableEq, Repr

/-- What the host reads between two edges (R31, R67 to R71). A read changes nothing (R32), and a read before
the first reset is refused (R34). -/
def State.outputs (s : State) : Except Refusal Outputs :=
  if s.resetSeen then
    .ok { aQ := s.a, bQ := s.b, cQ := s.c, dQ := s.d, eQ := s.e, hQ := s.h, lQ := s.l, fQ := s.fbyte,
          afQ := s.af, bcQ := s.bc, deQ := s.de, hlQ := s.hl,
          flagZ := s.f.z, flagN := s.f.n, flagH := s.f.h, flagC := s.f.cy, unimpl := s.unimpl }
  else .error .notYetReset

end Sys2Proof.Machine
end

