-- ==== Sys2Proof/Machine/EdgeStep.lean ====
section
/-! DEFINITION. What one rising edge does (spec/60_exceptions.md R119, spec/43_execute.md R94, R95,
spec/70_reset_and_hazards.md R128, R132). -/

namespace Sys2Proof.Machine

/-- The execute step on a port word (R94): the instruction it decodes to, or the unimplemented step where it
decodes to none (R55, R112). -/
def executeWord (w : Byte) (s : State) : StepOutcome :=
  match decode w with
  | .ok i    => exec i s
  | .error _ => unimplementedStep s

/-- One rising edge, in the order of R119: reset, collision, execute, host write, idle. -/
def edgeStep (e : Edge) (s : State) : StepOutcome :=
  if e.rst then .next s.resetAll
  else if e.execValid && e.wrEn then .refused .edgeCollision
  else if e.execValid then executeWord e.insn s
  else if e.wrEn then hostWrite e.wrSel e.wrData s
  else idleStep s

/-- An edge that executes the word `w` and does nothing else (the `EX` lines of spec/95_test_vectors.md). -/
def executeEdge (w : Byte) : Edge := { idleEdge with execValid := true, insn := w }

/-- An edge that writes `v` to the target `wrSel` and does nothing else (the `WR` lines). -/
def writeEdge (wrSel : BitVec 4) (v : Word) : Edge := { idleEdge with wrEn := true, wrSel := wrSel, wrData := v }

/-- A reset edge with every other input 0 (the `RESET` lines). -/
def resetEdge : Edge := { idleEdge with rst := true }

/-- The host drives `e` before whatever else it was going to drive. -/
def State.drive (s : State) (e : Edge) : State := { s with inputs := e :: s.inputs }

end Sys2Proof.Machine
end

