-- ==== Sys2Proof/Machine/Step.lean ====
section
/-! DEFINITION. The step of the block: one rising edge of `clk` (spec/00_scope.md R13, R17). -/

namespace Sys2Proof.Machine

/-- The next rising edge, with the levels the host drives at it. -/
def step (s : State) : Host.Outcome State Fault Refusal := edgeStep s.edge s.advance

/-- The host drives a table word as its next instruction (R30, R94). The block fetches nothing (R35): an
instruction reaches it on `insn` (notes/assumptions/10.md). -/
def State.withFetchWord (s : State) (nbits w : Nat) : State := s.drive (executeEdge (tableWord nbits w))

end Sys2Proof.Machine
end

