-- ==== Sys2Proof/Safety.lean ====
section
/-! DEFINITION. What claims mean by a run, by a host that keeps its duties, and by a run in which nothing was
left unimplemented. -/

namespace Sys2Proof.Machine

/-- `k` edges of the block, stopping at the first refusal. -/
def run (k : Nat) (s : State) : StepOutcome := Sys2Proof.core.run k s

/-- The block has been reset (R131) and every edge the host is going to drive is within the interface contract
(R132, R133). -/
def State.Ready (s : State) : Prop := s.resetSeen = true ∧ ∀ e ∈ s.inputs, e.wf = true

/-- The next edge breaks a duty of the host: it uses a block that was never reset, it drives an execute and a
write together, or it names a reserved write target (R34, R84, R132, R133). -/
def State.breaksContract (s : State) : Prop :=
  s.edge.rst = false ∧
    (s.resetSeen = false ∨ (s.edge.execValid = true ∧ s.edge.wrEn = true) ∨
      (s.edge.wrEn = true ∧ 0xB < s.edge.wrSel.toNat))

/-- The next `k` edges all have the outcome `Done` of R14: none is refused and none is `Unimplemented`. This is
the premise that item I1 of spec/93_implementation_defined.md asks of a claim about instructions. -/
def DoneRun : Nat → State → Prop
  | 0, _ => True
  | k + 1, s => ∃ t, step s = .next t ∧ t.report = .done ∧ DoneRun k t

/-- Two states that agree on everything but the flags and the report of the last edge. -/
def SameButFlags (s t : State) : Prop :=
  t = { s with f := t.f, report := t.report }

/-- Two outcomes of the same kind: the same refusal, or next states that agree but for the flags. -/
def SameOutcomeButFlags : StepOutcome → StepOutcome → Prop
  | .next s, .next t => SameButFlags s t ∧ t.report = s.report
  | .refused p, .refused q => p = q
  | _, _ => False

end Sys2Proof.Machine
end

