-- ==== Sys2Proof/Certificates/Slice0/Obligations.lean ====
section
/-! DEFINITION. The statements for the provers. Each docstring says which rules of spec/ it formalises. The
helper definitions write the spec's formulas in natural-number arithmetic or field by field, so that a statement
does not repeat the model's own definition. -/

open Sys2Proof Sys2Proof.Machine

namespace Sys2Proof.Claims

/-- The state after a wired `ADD A,r` whose operand is `v`: A becomes (A + v) mod 256, and the flags are those of
R90; nothing else changes but the outcome, `Done`. -/
def added (s : State) (v : Byte) : State :=
  { s with
    a := BitVec.ofNat 8 ((s.a.toNat + v.toNat) % 256)
    f := { z := decide ((s.a.toNat + v.toNat) % 256 = 0)
           n := false
           h := decide (0xF < s.a.toNat % 16 + v.toNat % 16)
           cy := decide (255 < s.a.toNat + v.toNat) }
    report := .done }

/-- The state after a wired `SUB r` whose operand is `v`: A becomes (A - v) mod 256, and the flags are those of
R92; nothing else changes but the outcome, `Done`. -/
def subtracted (s : State) (v : Byte) : State :=
  { s with
    a := BitVec.ofNat 8 ((s.a.toNat + 256 - v.toNat) % 256)
    f := { z := decide ((s.a.toNat + 256 - v.toNat) % 256 = 0)
           n := true
           h := decide (s.a.toNat % 16 < v.toNat % 16)
           cy := decide (s.a.toNat < v.toNat) }
    report := .done }

/-- The state after an unimplemented instruction: the same registers and flags, with the outcome
`Unimplemented` (R112). -/
def notImplemented (s : State) : State := { s with report := .unimplemented }

/-- The state after a reset edge (R128): every register and flag at its reset value; the parameters and the
host's further edges `rest` are not the block's to change. -/
def resetTo (p : Params) (rest : List Edge) : State where
  a := 0x00#8
  b := 0x00#8
  c := 0x00#8
  d := 0x00#8
  e := 0x00#8
  h := 0x00#8
  l := 0x00#8
  f := { z := false, n := false, h := false, cy := false }
  params := p
  resetSeen := true
  inputs := rest
  report := .done

/-- One rule of R98 to R104: the row's word, whether it is wired by default, and what it does on every state of
a block that has been reset, wired or not. -/
def AddRow (i : Instr) (w : Byte) (byDefault : Bool) (sel : SelectorSet → Bool) (operand : State → Byte) : Prop :=
  decode w = .ok i ∧ sel Params.default.wiredAdd = byDefault ∧
    ∀ s : State, s.resetSeen = true →
      (sel s.params.wiredAdd = true → exec i s = .next (added s (operand s))) ∧
      (sel s.params.wiredAdd = false → exec i s = .next (notImplemented s))

/-- One rule of R105 to R111, in the same way. -/
def SubRow (i : Instr) (w : Byte) (sel : SelectorSet → Bool) (operand : State → Byte) : Prop :=
  decode w = .ok i ∧ sel Params.default.subSelectors = false ∧
    ∀ s : State, s.resetSeen = true →
      (sel s.params.subSelectors = true → exec i s = .next (subtracted s (operand s))) ∧
      (sel s.params.subSelectors = false → exec i s = .next (notImplemented s))

/-- The next edge is a host write to `sel`, on a block that has been reset (R66). -/
def WritesTo (s : State) (sel : BitVec 4) : Prop :=
  s.resetSeen = true ∧ s.edge.rst = false ∧ s.edge.execValid = false ∧ s.edge.wrEn = true ∧ s.edge.wrSel = sel

/-- One write rule of R72 to R83: what a host write to `sel` makes of the state. -/
def WriteRow (sel : BitVec 4) (effect : Word → State → State) : Prop :=
  ∀ s : State, WritesTo s sel →
    step s = .next (effect s.edge.wrData { s with inputs := s.inputs.tail, report := .done })

/-- The flags of a byte: bits 7 to 4, the rest ignored (R62). -/
def flagsOf (v : Byte) : Flags := { z := v[7], n := v[6], h := v[5], cy := v[4] }

/-- The next edge executes (R94). -/
def Executes (s : State) : Prop := s.edge.rst = false ∧ s.edge.execValid = true ∧ s.edge.wrEn = false

/-- The next edge is a host write (R66). -/
def Writes (s : State) : Prop := s.edge.rst = false ∧ s.edge.execValid = false ∧ s.edge.wrEn = true

end Sys2Proof.Claims

open Sys2Proof.Claims

/-! ## Flags and views -/

/-- R61: `to_byte` packs Z, N, H, CY into bits 7 to 4; bits 3..0 are 0; the result is one of the 16 values 0x00,
0x10, ..., 0xF0. -/
def Obligations.FlagsPackIntoHighNibble : Prop :=
  (∀ f : Flags, f.toByte[7] = f.z ∧ f.toByte[6] = f.n ∧ f.toByte[5] = f.h ∧ f.toByte[4] = f.cy ∧
    f.toByte[3] = false ∧ f.toByte[2] = false ∧ f.toByte[1] = false ∧ f.toByte[0] = false ∧
    ∃ k < 16, f.toByte.toNat = 16 * k) ∧
  Flags.toByte { z := true, n := false, h := false, cy := true } = 0b1001_0000#8

/-- R62: `from_byte` takes Z, N, H, CY from bits 7 to 4, and bits 3..0 have no effect. -/
def Obligations.FlagsUnpackFromHighNibble : Prop :=
  (∀ v : Byte, Flags.fromByte v = flagsOf v) ∧
  (∀ v u : Byte, v.toNat / 16 = u.toNat / 16 → Flags.fromByte v = Flags.fromByte u) ∧
  Flags.fromByte 0x0F#8 = { z := false, n := false, h := false, cy := false } ∧
  Flags.fromByte 0xFF#8 = { z := true, n := true, h := true, cy := true } ∧
  Flags.fromByte 0b1001_0000#8 = { z := true, n := false, h := false, cy := true }

/-- R63: `from_byte(to_byte(f)) == f` for every flag value. -/
def Obligations.FlagsSurviveTheByte : Prop := ∀ f : Flags, Flags.fromByte f.toByte = f

/-- R64: `to_byte(from_byte(b)) == b & 0xF0` for every byte. -/
def Obligations.ByteLosesLowNibbleInFlags : Prop := ∀ v : Byte, (Flags.fromByte v).toByte = v &&& 0xF0#8

/-- R68 to R71: the four pair views, high byte first; bits 3..0 of AF read 0. -/
def Obligations.PairViewsConcatenate : Prop :=
  ∀ s : State,
    s.af.toNat = 256 * s.a.toNat + s.f.toByte.toNat ∧ s.af.toNat % 16 = 0 ∧
    s.bc.toNat = 256 * s.b.toNat + s.c.toNat ∧
    s.de.toNat = 256 * s.d.toNat + s.e.toNat ∧
    s.hl.toNat = 256 * s.h.toNat + s.l.toNat

/-- R31 and R67: once the block has been reset, each output shows its piece of state, and `unimpl` is
`exec_valid & ~rst & ~wr_en & ~implemented(insn)`. -/
def Obligations.OutputsShowTheState : Prop :=
  ∀ s : State, s.resetSeen = true → ∃ o : Outputs, s.outputs = .ok o ∧
    (o.aQ = s.a ∧ o.bQ = s.b ∧ o.cQ = s.c ∧ o.dQ = s.d ∧ o.eQ = s.e ∧ o.hQ = s.h ∧ o.lQ = s.l) ∧
    o.fQ = s.f.toByte ∧
    (o.afQ = s.a ++ s.f.toByte ∧ o.bcQ = s.b ++ s.c ∧ o.deQ = s.d ++ s.e ∧ o.hlQ = s.h ++ s.l) ∧
    (o.flagZ = s.f.z ∧ o.flagN = s.f.n ∧ o.flagH = s.f.h ∧ o.flagC = s.f.cy) ∧
    (o.unimpl = true ↔ s.edge.execValid = true ∧ s.edge.rst = false ∧ s.edge.wrEn = false ∧
      implemented s.params s.edge.insn = false)

/-! ## The alu_result_path -/

/-- R90: the adder's result and its four flags, for every pair of bytes. -/
def Obligations.AdderResultAndFlags : Prop :=
  ∀ a v : Byte,
    (alu .add a v).res.toNat = (a.toNat + v.toNat) % 256 ∧
    ((alu .add a v).flags.z = true ↔ (alu .add a v).res = 0x00#8) ∧
    (alu .add a v).flags.n = false ∧
    ((alu .add a v).flags.h = true ↔ 0xF < a.toNat % 16 + v.toNat % 16) ∧
    ((alu .add a v).flags.cy = true ↔ 255 < a.toNat + v.toNat)

/-- What the spec derives from R90 in R91 (the spec marks it as its own inference): the adder is commutative in
all five outputs, Z exactly on a sum of 0 or 256, and doubling a byte has H = a[3] and CY = a[7]. -/
def Obligations.AdderLaws : Prop :=
  ∀ a v : Byte,
    alu .add a v = alu .add v a ∧
    ((alu .add a v).flags.z = true ↔ a.toNat + v.toNat = 0 ∨ a.toNat + v.toNat = 256) ∧
    (alu .add a a).flags.h = a[3] ∧ (alu .add a a).flags.cy = a[7]

/-- The subtractor of R92, which the spec gives from general knowledge (notes/assumptions/8.md): its result and
its four flags, for every pair of bytes. -/
def Obligations.SubtractorResultAndFlags : Prop :=
  ∀ a v : Byte,
    (alu .sub a v).res.toNat = (a.toNat + 256 - v.toNat) % 256 ∧
    ((alu .sub a v).flags.z = true ↔ (alu .sub a v).res = 0x00#8) ∧
    (alu .sub a v).flags.n = true ∧
    ((alu .sub a v).flags.h = true ↔ a.toNat % 16 < v.toNat % 16) ∧
    ((alu .sub a v).flags.cy = true ↔ a.toNat < v.toNat)

/-- What the spec derives from R92 in R93 (the spec marks it as its own inference, and R92 as general knowledge;
notes/assumptions/8.md): CY exactly where a < v, Z exactly where a = v, N always, and the adder undoes the
subtractor, carrying wherever the subtractor borrowed. -/
def Obligations.SubtractorLaws : Prop :=
  ∀ a v : Byte,
    ((alu .sub a v).flags.cy = true ↔ a.toNat < v.toNat) ∧
    ((alu .sub a v).flags.z = true ↔ a = v) ∧
    (alu .sub a v).flags.n = true ∧
    (alu .add (alu .sub a v).res v).res = a ∧
    (alu .add (alu .sub a v).res v).flags.cy = (alu .sub a v).flags.cy ∧
    (alu .add (alu .sub a v).res v).flags.h = (alu .sub a v).flags.h

/-! ## Encoding -/

/-- R60: the 14 rows of the opcode map, every other word decodes to nothing, and by default only 0x81 is
wired. -/
def Obligations.OpcodeMapWords : Prop :=
  (decode 0x80#8 = .ok .addAB ∧ decode 0x81#8 = .ok .addAC ∧ decode 0x82#8 = .ok .addAD ∧
   decode 0x83#8 = .ok .addAE ∧ decode 0x84#8 = .ok .addAH ∧ decode 0x85#8 = .ok .addAL ∧
   decode 0x87#8 = .ok .addAA ∧
   decode 0x90#8 = .ok .subB ∧ decode 0x91#8 = .ok .subC ∧ decode 0x92#8 = .ok .subD ∧
   decode 0x93#8 = .ok .subE ∧ decode 0x94#8 = .ok .subH ∧ decode 0x95#8 = .ok .subL ∧
   decode 0x97#8 = .ok .subA) ∧
  (∀ w : Byte, w ∉ [0x80#8, 0x81#8, 0x82#8, 0x83#8, 0x84#8, 0x85#8, 0x87#8,
      0x90#8, 0x91#8, 0x92#8, 0x93#8, 0x94#8, 0x95#8, 0x97#8] → ∃ why, decode w = .error why) ∧
  (∀ w : Byte, implemented Params.default w = true ↔ w = 0x81#8)

/-- R50 to R52: a word decodes to `(op, sel)` exactly when its group is `0b10`, its `opc` is the code of `op` and
its `rsel` is the code of `sel`. -/
def Obligations.DecodesByItsThreeFields : Prop :=
  ∀ (w : Byte) (op : AluOp) (r : Reg8),
    decodePair w = .ok (op, r) ↔
      w.toNat / 64 = 0b10 ∧
      w.toNat / 8 % 8 = (match op with | .add => 0b000 | .sub => 0b010) ∧
      w.toNat % 8 = (match r with
        | .b => 0b000 | .c => 0b001 | .d => 0b010 | .e => 0b011 | .h => 0b100 | .l => 0b101 | .a => 0b111)

/-- Decoding and encoding agree in both directions: decoding an encoded instruction gives it back, and a word
that decodes is the encoding of what it decodes to, so no two words share a meaning. -/
def Obligations.DecodeInvertsEncode : Prop :=
  (∀ i : Instr, decode (encode i) = .ok i) ∧ ∀ (w : Byte) (i : Instr), decode w = .ok i → encode i = w

/-- R96: the operation a word names depends on `opc` alone and its operand register on `rsel` alone; and the
well-formedness check accepts exactly the words that decode. -/
def Obligations.DispatchLevelsAreOrthogonal : Prop :=
  (∀ (w u : Byte) (i j : Instr), decode w = .ok i → decode u = .ok j →
    (opcField w = opcField u → i.op = j.op) ∧ (rselField w = rselField u → i.sel = j.sel) ∧
    (i.op = j.op → i.sel = j.sel → i = j)) ∧
  ∀ w : Byte, insnWf w = true ↔ ∃ i, decode w = .ok i

/-- R53: a word is implemented exactly when it decodes to an ADD whose selector is in `P_WIRED_ADD` or to a SUB
whose selector is in `P_SUB_SELECTORS`; with the default parameters that is 0x81 alone. -/
def Obligations.ImplementedIsWiredSelector : Prop :=
  (∀ (p : Params) (w : Byte), implemented p w = true ↔
    (∃ r, decodePair w = .ok (.add, r) ∧ inSet p.wiredAdd r = true) ∨
    (∃ r, decodePair w = .ok (.sub, r) ∧ inSet p.subSelectors r = true)) ∧
  ∀ w : Byte, implemented Params.default w = true ↔ w = 0x81#8

/-! ## Instructions -/

/-- R98 to R104: each `ADD A,r` has its word; where its selector is wired it answers the next state with
A = (A + r) mod 256 and the flags of R90, both operands read before the edge; where it is not, it is
unimplemented. Everything else is unchanged, because the next state is written out whole. -/
def Obligations.AddRowsExecute : Prop :=
  AddRow .addAB 0x80#8 false (·.b) (·.b) ∧
  AddRow .addAC 0x81#8 true (·.c) (·.c) ∧
  AddRow .addAD 0x82#8 false (·.d) (·.d) ∧
  AddRow .addAE 0x83#8 false (·.e) (·.e) ∧
  AddRow .addAH 0x84#8 false (·.h) (·.h) ∧
  AddRow .addAL 0x85#8 false (·.l) (·.l) ∧
  AddRow .addAA 0x87#8 false (·.a) (·.a)

/-- The seven `SUB r` of 43_execute.md section 3, whose result and flags the spec takes from general knowledge
(R92; notes/assumptions/8.md): where the selector is in `P_SUB_SELECTORS` each answers the next state with
A = (A - r) mod 256 and the flags of R92; where it is not, it is unimplemented. -/
def Obligations.SubRowsExecute : Prop :=
  SubRow .subB 0x90#8 (·.b) (·.b) ∧
  SubRow .subC 0x91#8 (·.c) (·.c) ∧
  SubRow .subD 0x92#8 (·.d) (·.d) ∧
  SubRow .subE 0x93#8 (·.e) (·.e) ∧
  SubRow .subH 0x94#8 (·.h) (·.h) ∧
  SubRow .subL 0x95#8 (·.l) (·.l) ∧
  SubRow .subA 0x97#8 (·.a) (·.a)

/-- R97 and the frame of every instruction: a wired one writes the ALU's result to A and its flags to F and
nothing else; one that is not wired writes neither. No instruction writes B, C, D, E, H or L, the parameters, or
what the host will drive. The block has no memory and no program counter, so there is nothing else to frame. -/
def Obligations.InstructionFrame : Prop :=
  ∀ (i : Instr) (s t : State), exec i s = .next t →
    (t.b = s.b ∧ t.c = s.c ∧ t.d = s.d ∧ t.e = s.e ∧ t.h = s.h ∧ t.l = s.l) ∧
    (t.params = s.params ∧ t.resetSeen = s.resetSeen ∧ t.inputs = s.inputs) ∧
    (wired s.params i.op i.sel = true →
      t.a = (alu i.op s.a (s.reg i.sel)).res ∧ t.f = (alu i.op s.a (s.reg i.sel)).flags ∧ t.report = .done) ∧
    (wired s.params i.op i.sel = false → t.a = s.a ∧ t.f = s.f ∧ t.report = .unimplemented)

/-- R28: no instruction reads a flag. On two states that differ in the flags alone, an instruction that is wired
answers the same next state, and one that is not keeps each state's own flags. -/
def Obligations.InstructionsReadNoFlag : Prop :=
  ∀ (i : Instr) (s t : State) (f : Flags), exec i s = .next t →
    ∃ u, exec i { s with f := f } = .next u ∧ u.a = t.a ∧
      (wired s.params i.op i.sel = true → u = t) ∧ (wired s.params i.op i.sel = false → u.f = f)

/-! ## The step -/

/-- The bridge from `step` to the instructions: at an execute edge whose word decodes to `i`, the step is
`exec i` with that edge taken off the host's list; and `withFetchWord` is such an edge (notes/assumptions/10.md). -/
def Obligations.StepRunsDecodedInstruction : Prop :=
  (∀ (s : State) (e : Edge) (rest : List Edge) (i : Instr),
    s.inputs = e :: rest → e.rst = false → e.execValid = true → e.wrEn = false → decode e.insn = .ok i →
      step s = exec i { s with inputs := rest }) ∧
  (∀ (s : State) (nbits w : Nat) (i : Instr),
    decodeTableWord nbits w = some i → step (s.withFetchWord nbits w) = exec i s)

/-- R94: an execute edge on a block that has been reset reads `insn` and the state; where the word is
implemented it writes the ALU's result to A and its flags to F, and where it is not it is unimplemented. -/
def Obligations.ExecuteStepCommits : Prop :=
  ∀ s : State, s.resetSeen = true → Executes s →
    (∀ (op : AluOp) (r : Reg8), implemented s.params s.edge.insn = true → decodePair s.edge.insn = .ok (op, r) →
      step s = .next { s with a := (alu op s.a (s.reg r)).res, f := (alu op s.a (s.reg r)).flags,
                              inputs := s.inputs.tail, report := .done }) ∧
    (implemented s.params s.edge.insn = false →
      step s = .next (notImplemented { s with inputs := s.inputs.tail }))

/-- R112: an execute step whose word is not implemented, decoded or not, changes no register and no flag;
`unimpl` is 1 in the cycle that ends at that edge; and the outcome is `Unimplemented`, not `Done`. That the
outcome stands in a field of the next state is the model's form for it (notes/assumptions/3.md). -/
def Obligations.UnimplementedChangesNothing : Prop :=
  ∀ s : State, s.resetSeen = true → Executes s → implemented s.params s.edge.insn = false →
    s.unimpl = true ∧
    ∃ t, step s = .next t ∧ t.report = .unimplemented ∧ t.report ≠ .done ∧
      t = { s with inputs := t.inputs, report := t.report } ∧ t.inputs = s.inputs.tail

/-- The outcome `Unimplemented` is reported at exactly the edges whose cycle shows `unimpl` = 1 (R31, R112). The
report is the model's form of R14's outcome (notes/assumptions/3.md). -/
def Obligations.ReportFollowsUnimplOutput : Prop :=
  ∀ s t : State, step s = .next t → (t.report = .unimplemented ↔ s.unimpl = true)

/-- R128: a reset edge gives every register and flag its reset value whatever the state was and whatever the other
inputs are, `unimpl` is 0 in its cycle, and reset may be held for any number of edges. -/
def Obligations.ResetEdgeClearsEverything : Prop :=
  (∀ s : State, s.edge.rst = true →
    s.unimpl = false ∧ step s = .next (resetTo s.params s.inputs.tail)) ∧
  ∀ (k : Nat) (held rest : List Edge) (s : State),
    held.length = k + 1 → (∀ e ∈ held, e.rst = true) → s.inputs = held ++ rest →
      run (k + 1) s = .next (resetTo s.params rest)

/-- The state after reset: every register 0x00 and every flag clear, so Fbyte is 0x00 and each view 0x0000 (the
spec derives the last two), and the machine's reset state is that one with the default parameters. That no edge
is pending there is the model's choice (notes/assumptions/2.md). -/
def Obligations.ResetStateIsAllZero : Prop :=
  State.reset = resetTo { wiredAdd := { SelectorSet.empty with c := true }, subSelectors := SelectorSet.empty } [] ∧
  State.reset.fbyte = 0x00#8 ∧ State.reset.af = 0x0000#16 ∧ State.reset.bc = 0x0000#16 ∧
  State.reset.de = 0x0000#16 ∧ State.reset.hl = 0x0000#16

/-- R95: an edge with none of `rst`, `exec_valid` and `wr_en` changes no state, and `unimpl` is 0. -/
def Obligations.IdleEdgeChangesNothing : Prop :=
  ∀ s : State, s.resetSeen = true → s.edge.rst = false → s.edge.execValid = false → s.edge.wrEn = false →
    s.unimpl = false ∧ step s = .next { s with inputs := s.inputs.tail, report := .done }

/-- R119: at one edge reset comes first, then the collision, then an execute, then a host write, then idle. A
collision is refused on every block; which refusal it is, is said for a block that has been reset. -/
def Obligations.EdgePriorityOrder : Prop :=
  ∀ (s : State) (e : Edge) (rest : List Edge), s.inputs = e :: rest →
    (e.rst = true → step s = .next (resetTo s.params rest)) ∧
    (e.rst = false → e.execValid = true → e.wrEn = true →
      (∃ r, step s = .refused r) ∧ (s.resetSeen = true → step s = .refused .edgeCollision)) ∧
    (e.rst = false → e.execValid = true → e.wrEn = false → step s = executeWord e.insn { s with inputs := rest }) ∧
    (e.rst = false → e.execValid = false → e.wrEn = true →
      step s = hostWrite e.wrSel e.wrData { s with inputs := rest }) ∧
    (e.rst = false → e.execValid = false → e.wrEn = false → s.resetSeen = true →
      step s = .next { s with inputs := rest, report := .done })

/-- R132: an edge with `exec_valid` and `wr_en` both 1 and no `rst` is refused on every block; and on a block that
has been reset no other edge is refused for that reason. -/
def Obligations.CollisionRefusedExactly : Prop :=
  (∀ s : State, s.edge.rst = false → s.edge.execValid = true → s.edge.wrEn = true → ∃ r, step s = .refused r) ∧
  ∀ s : State, s.resetSeen = true →
    (step s = .refused .edgeCollision ↔ s.edge.rst = false ∧ s.edge.execValid = true ∧ s.edge.wrEn = true)

/-- R84, the part a model can say: a host write to a reserved select is refused, and nothing else is refused for
that reason. -/
def Obligations.ReservedWriteSelectRefused : Prop :=
  ∀ (s : State) (sel : BitVec 4), s.resetSeen = true →
    (step s = .refused (.reservedWriteSelect sel) ↔ Writes s ∧ s.edge.wrSel = sel ∧ 0xC ≤ sel.toNat)

/-- Before the first reset edge (R34, R131) every read of the state's outputs and every instruction is refused, and
so is every edge but a reset edge. Two clauses are the model's own choice. The read that is refused takes in
`unimpl`, for which R34 asks no refusal (notes/assumptions/12.md); `State.unimpl` alone is the formula of R31 on any
block. And a collision there is refused as `edgeCollision`, every other edge as `notYetReset`
(notes/assumptions/5.md); where the host's list is empty that other edge is the idle one (notes/assumptions/2.md). -/
def Obligations.NothingBeforeReset : Prop :=
  ∀ s : State, s.resetSeen = false →
    s.outputs = .error .notYetReset ∧ (∀ i, exec i s = .refused .notYetReset) ∧
    (s.edge.rst = false → s.edge.noCollision = true → step s = .refused .notYetReset) ∧
    (s.edge.rst = false → s.edge.noCollision = false → step s = .refused .edgeCollision) ∧
    (∀ t, step s = .next t → s.edge.rst = true)

/-- R34: what the registers and flags hold before the first reset cannot be observed. Two blocks that have not
been reset, with the same parameters and the same host, give the same outputs and the same outcome after any
number of edges, whatever their registers and flags. -/
def Obligations.PowerUpValuesUnobservable : Prop :=
  ∀ s u : State, s.resetSeen = false → u.resetSeen = false → s.params = u.params → s.inputs = u.inputs →
    s.outputs = u.outputs ∧ ∀ k, run (k + 1) s = run (k + 1) u

/-! ## Host writes -/

/-- R72 to R79: the eight 8-bit host writes, each with its select code, from `wr_data[7:0]`; nothing else
changes. -/
def Obligations.ByteWriteRules : Prop :=
  WriteRow 0x0#4 (fun v s => { s with a := BitVec.ofNat 8 (v.toNat % 256) }) ∧
  WriteRow 0x1#4 (fun v s => { s with f := flagsOf (BitVec.ofNat 8 (v.toNat % 256)) }) ∧
  WriteRow 0x2#4 (fun v s => { s with b := BitVec.ofNat 8 (v.toNat % 256) }) ∧
  WriteRow 0x3#4 (fun v s => { s with c := BitVec.ofNat 8 (v.toNat % 256) }) ∧
  WriteRow 0x4#4 (fun v s => { s with d := BitVec.ofNat 8 (v.toNat % 256) }) ∧
  WriteRow 0x5#4 (fun v s => { s with e := BitVec.ofNat 8 (v.toNat % 256) }) ∧
  WriteRow 0x6#4 (fun v s => { s with h := BitVec.ofNat 8 (v.toNat % 256) }) ∧
  WriteRow 0x7#4 (fun v s => { s with l := BitVec.ofNat 8 (v.toNat % 256) })

/-- R80 to R83: the four 16-bit host writes, high byte to the first-named register, the low byte of AF through
`from_byte`; nothing else changes. -/
def Obligations.PairWriteRules : Prop :=
  WriteRow 0x8#4 (fun v s =>
    { s with a := BitVec.ofNat 8 (v.toNat / 256), f := flagsOf (BitVec.ofNat 8 (v.toNat % 256)) }) ∧
  WriteRow 0x9#4 (fun v s =>
    { s with b := BitVec.ofNat 8 (v.toNat / 256), c := BitVec.ofNat 8 (v.toNat % 256) }) ∧
  WriteRow 0xA#4 (fun v s =>
    { s with d := BitVec.ofNat 8 (v.toNat / 256), e := BitVec.ofNat 8 (v.toNat % 256) }) ∧
  WriteRow 0xB#4 (fun v s =>
    { s with h := BitVec.ofNat 8 (v.toNat / 256), l := BitVec.ofNat 8 (v.toNat % 256) })

/-- R85: a 16-bit value written to BC, DE or HL is read back whole on that pair's output. -/
def Obligations.PairWriteReadsBack : Prop :=
  ∀ s : State,
    (WritesTo s 0x9#4 → ∃ t o, step s = .next t ∧ t.outputs = .ok o ∧ o.bcQ = s.edge.wrData) ∧
    (WritesTo s 0xA#4 → ∃ t o, step s = .next t ∧ t.outputs = .ok o ∧ o.deQ = s.edge.wrData) ∧
    (WritesTo s 0xB#4 → ∃ t o, step s = .next t ∧ t.outputs = .ok o ∧ o.hlQ = s.edge.wrData)

/-- R86: a 16-bit value v written to AF is read back as `v & 0xFFF0`. -/
def Obligations.AfWriteLosesLowNibble : Prop :=
  ∀ s : State, WritesTo s 0x8#4 →
    ∃ t o, step s = .next t ∧ t.outputs = .ok o ∧ o.afQ = s.edge.wrData &&& 0xFFF0#16

/-- R58: an 8-bit write ignores `wr_data[15:8]`; a 16-bit write to BC, DE or HL uses all of `wr_data`. -/
def Obligations.WriteDataWidths : Prop :=
  ∀ (s : State) (e x : Edge), s.resetSeen = true →
    e.rst = false → e.execValid = false → e.wrEn = true → x = { e with wrData := x.wrData } →
    (e.wrSel.toNat ≤ 0x7 → e.wrData.toNat % 256 = x.wrData.toNat % 256 → step (s.drive e) = step (s.drive x)) ∧
    (0x9 ≤ e.wrSel.toNat → e.wrSel.toNat ≤ 0xB → step (s.drive e) = step (s.drive x) → e.wrData = x.wrData)

/-- R41: writing the same value twice leaves the same state as writing it once, and for F and AF the low nibble
written makes no difference (the spec derives the second part from R64). -/
def Obligations.HostWritesAreIdempotent : Prop :=
  ∀ (s t : State) (e x : Edge), e.rst = false → e.execValid = false → e.wrEn = true →
    step (s.drive e) = .next t →
      step (t.drive e) = .next t ∧
      (e.wrSel = 0x1#4 ∨ e.wrSel = 0x8#4 → x = { e with wrData := e.wrData &&& 0xFFF0#16 } →
        step (s.drive x) = .next t)

/-! ## Rules of the whole machine -/

/-- R27: who writes the flags, and what. A reset clears them; a wired ADD or SUB loads the ALU's four flags, with
N = 0 for ADD and N = 1 for SUB; a host write to F or AF loads `from_byte(wr_data[7:0])`; nothing else writes a
flag. -/
def Obligations.FlagWriters : Prop :=
  ∀ s t : State, step s = .next t →
    (s.edge.rst = true → t.f = { z := false, n := false, h := false, cy := false }) ∧
    (∀ i, Executes s → decode s.edge.insn = .ok i → wired s.params i.op i.sel = true →
      t.f = (alu i.op s.a (s.reg i.sel)).flags ∧ (t.f.n = true ↔ i.op = .sub)) ∧
    (Writes s → s.edge.wrSel = 0x1#4 ∨ s.edge.wrSel = 0x8#4 →
      t.f = flagsOf (BitVec.ofNat 8 (s.edge.wrData.toNat % 256))) ∧
    (t.f ≠ s.f → s.edge.rst = true ∨ (Executes s ∧ implemented s.params s.edge.insn = true) ∨
      (Writes s ∧ (s.edge.wrSel = 0x1#4 ∨ s.edge.wrSel = 0x8#4)))

/-- Who writes the data registers (R20, R66, R97, R112, R128): A changes only at a reset, at an implemented
execute, or at a host write to A or AF; each other register only at a reset or at a host write that names it or
its pair. -/
def Obligations.RegisterWriters : Prop :=
  ∀ s t : State, step s = .next t → s.edge.rst = false →
    (t.a ≠ s.a → (Executes s ∧ implemented s.params s.edge.insn = true) ∨
      (Writes s ∧ (s.edge.wrSel = 0x0#4 ∨ s.edge.wrSel = 0x8#4))) ∧
    (t.b ≠ s.b → Writes s ∧ (s.edge.wrSel = 0x2#4 ∨ s.edge.wrSel = 0x9#4)) ∧
    (t.c ≠ s.c → Writes s ∧ (s.edge.wrSel = 0x3#4 ∨ s.edge.wrSel = 0x9#4)) ∧
    (t.d ≠ s.d → Writes s ∧ (s.edge.wrSel = 0x4#4 ∨ s.edge.wrSel = 0xA#4)) ∧
    (t.e ≠ s.e → Writes s ∧ (s.edge.wrSel = 0x5#4 ∨ s.edge.wrSel = 0xA#4)) ∧
    (t.h ≠ s.h → Writes s ∧ (s.edge.wrSel = 0x6#4 ∨ s.edge.wrSel = 0xB#4)) ∧
    (t.l ≠ s.l → Writes s ∧ (s.edge.wrSel = 0x7#4 ∨ s.edge.wrSel = 0xB#4))

/-- R133: a step is refused exactly when the next edge breaks a duty of the host, and otherwise it answers a next
state; so no state of the block and no word on `insn` can stop it. Where the host's list is empty the next edge is
idle, which is the model's choice (notes/assumptions/2.md). -/
def Obligations.OnlyContractBreachesStop : Prop :=
  ∀ s : State, ((∃ r, step s = .refused r) ↔ s.breaksContract) ∧ ((∃ t, step s = .next t) ↔ ¬ s.breaksContract)

/-- The invariant that the block has been reset and every edge on the host's list is within the contract holds at
reset. The first half is R131; the second holds because the list is empty in `State.reset`, which is the model's
choice (notes/assumptions/2.md). -/
def Obligations.ReadyAtReset : Prop := State.reset.Ready

/-- Every step keeps that invariant, from every state that meets it, and such a step answers a next state. Where the
host's list is empty it does so because the next edge is then idle, which is the model's choice
(notes/assumptions/2.md). -/
def Obligations.ReadyKeptByEveryStep : Prop :=
  (∀ s t : State, s.Ready → step s = .next t → t.Ready) ∧ ∀ s : State, s.Ready → ∃ t, step s = .next t

/-- With a host that keeps the contract the block runs on: after any number `k` of edges it answers a next state,
still within the contract, with the same parameters, and with the first `k` edges taken off the host's list, or all
of them where it lists fewer. Past the end of the list the run goes on by idle edges, which is the model's choice
and says nothing of a host that drives something else there (notes/assumptions/2.md). -/
def Obligations.ReadyBlockRunsForever : Prop :=
  ∀ (k : Nat) (s : State), s.Ready →
    ∃ t, run k s = .next t ∧ t.Ready ∧ t.params = s.params ∧ t.inputs = s.inputs.drop k

/-- The parameters are fixed for the machine (R7): no run of edges changes them; and a block once reset stays
reset. That State holds them is the model's choice (notes/assumptions/1.md). -/
def Obligations.ParametersNeverChange : Prop :=
  ∀ (k : Nat) (s t : State), run k s = .next t →
    t.params = s.params ∧ (s.resetSeen = true → t.resetSeen = true)

/-- The premise of item I1 of 93_implementation_defined.md can be met: on a ready block, a run in which every
execute edge carries an implemented word has the outcome `Done` at every edge. For `k` beyond the host's list the
edges past its end are idle, and so `Done`, by the model's choice (notes/assumptions/2.md). -/
def Obligations.WiredRunIsDoneThroughout : Prop :=
  ∀ (k : Nat) (s : State), s.Ready →
    (∀ e ∈ s.inputs.take k, e.rst = true ∨ e.execValid = false ∨ implemented s.params e.insn = true) → DoneRun k s

/-- R28 over whole runs: the flags never reach a data register, a refusal or an outcome. Two blocks that differ
in their flags alone, with the same host, stay equal but for the flags after any number of edges, and stop at
the same edge for the same reason if they stop. -/
def Obligations.FlagsNeverReachData : Prop :=
  ∀ (k : Nat) (s u : State), SameButFlags s u → s.report = u.report → SameOutcomeButFlags (run k s) (run k u)

/-- R134: dependent instructions need no spacing. Of two `ADD A,C` at consecutive edges, the second adds to the A
that the first wrote, and all four flags are those of that second addition. -/
def Obligations.DependentAddsNeedNoSpacing : Prop :=
  ∀ (s : State) (rest : List Edge), s.resetSeen = true → s.params.wiredAdd.c = true →
    s.inputs = executeEdge 0x81#8 :: executeEdge 0x81#8 :: rest →
      ∃ t, run 2 s = .next t ∧ t.a.toNat = (s.a.toNat + 2 * s.c.toNat) % 256 ∧ t.c = s.c ∧ t.inputs = rest ∧
        t.f = { z := decide ((s.a.toNat + 2 * s.c.toNat) % 256 = 0)
                n := false
                h := decide (0xF < (s.a.toNat + s.c.toNat) % 16 + s.c.toNat % 16)
                cy := decide (255 < (s.a.toNat + s.c.toNat) % 256 + s.c.toNat) }
end

