-- ==== Sys2Proof/Laws/State.lean ====
section
/-! SUPPORT. What each update of State does to each field. Each lemma is one field of one update, true by
unfolding the record, so that no later proof unfolds one. -/

namespace Sys2Proof.Machine

variable (s : State) (v : Byte) (f : Flags) (p : Report) (x : Edge)

@[simp] theorem setReg_a_a : (s.setReg .a v).a = v := rfl
@[simp] theorem setReg_a_b : (s.setReg .a v).b = s.b := rfl
@[simp] theorem setReg_a_c : (s.setReg .a v).c = s.c := rfl
@[simp] theorem setReg_a_d : (s.setReg .a v).d = s.d := rfl
@[simp] theorem setReg_a_e : (s.setReg .a v).e = s.e := rfl
@[simp] theorem setReg_a_h : (s.setReg .a v).h = s.h := rfl
@[simp] theorem setReg_a_l : (s.setReg .a v).l = s.l := rfl

@[simp] theorem setReg_b_a : (s.setReg .b v).a = s.a := rfl
@[simp] theorem setReg_b_b : (s.setReg .b v).b = v := rfl
@[simp] theorem setReg_b_c : (s.setReg .b v).c = s.c := rfl
@[simp] theorem setReg_b_d : (s.setReg .b v).d = s.d := rfl
@[simp] theorem setReg_b_e : (s.setReg .b v).e = s.e := rfl
@[simp] theorem setReg_b_h : (s.setReg .b v).h = s.h := rfl
@[simp] theorem setReg_b_l : (s.setReg .b v).l = s.l := rfl

@[simp] theorem setReg_c_a : (s.setReg .c v).a = s.a := rfl
@[simp] theorem setReg_c_b : (s.setReg .c v).b = s.b := rfl
@[simp] theorem setReg_c_c : (s.setReg .c v).c = v := rfl
@[simp] theorem setReg_c_d : (s.setReg .c v).d = s.d := rfl
@[simp] theorem setReg_c_e : (s.setReg .c v).e = s.e := rfl
@[simp] theorem setReg_c_h : (s.setReg .c v).h = s.h := rfl
@[simp] theorem setReg_c_l : (s.setReg .c v).l = s.l := rfl

@[simp] theorem setReg_d_a : (s.setReg .d v).a = s.a := rfl
@[simp] theorem setReg_d_b : (s.setReg .d v).b = s.b := rfl
@[simp] theorem setReg_d_c : (s.setReg .d v).c = s.c := rfl
@[simp] theorem setReg_d_d : (s.setReg .d v).d = v := rfl
@[simp] theorem setReg_d_e : (s.setReg .d v).e = s.e := rfl
@[simp] theorem setReg_d_h : (s.setReg .d v).h = s.h := rfl
@[simp] theorem setReg_d_l : (s.setReg .d v).l = s.l := rfl

@[simp] theorem setReg_e_a : (s.setReg .e v).a = s.a := rfl
@[simp] theorem setReg_e_b : (s.setReg .e v).b = s.b := rfl
@[simp] theorem setReg_e_c : (s.setReg .e v).c = s.c := rfl
@[simp] theorem setReg_e_d : (s.setReg .e v).d = s.d := rfl
@[simp] theorem setReg_e_e : (s.setReg .e v).e = v := rfl
@[simp] theorem setReg_e_h : (s.setReg .e v).h = s.h := rfl
@[simp] theorem setReg_e_l : (s.setReg .e v).l = s.l := rfl

@[simp] theorem setReg_h_a : (s.setReg .h v).a = s.a := rfl
@[simp] theorem setReg_h_b : (s.setReg .h v).b = s.b := rfl
@[simp] theorem setReg_h_c : (s.setReg .h v).c = s.c := rfl
@[simp] theorem setReg_h_d : (s.setReg .h v).d = s.d := rfl
@[simp] theorem setReg_h_e : (s.setReg .h v).e = s.e := rfl
@[simp] theorem setReg_h_h : (s.setReg .h v).h = v := rfl
@[simp] theorem setReg_h_l : (s.setReg .h v).l = s.l := rfl

@[simp] theorem setReg_l_a : (s.setReg .l v).a = s.a := rfl
@[simp] theorem setReg_l_b : (s.setReg .l v).b = s.b := rfl
@[simp] theorem setReg_l_c : (s.setReg .l v).c = s.c := rfl
@[simp] theorem setReg_l_d : (s.setReg .l v).d = s.d := rfl
@[simp] theorem setReg_l_e : (s.setReg .l v).e = s.e := rfl
@[simp] theorem setReg_l_h : (s.setReg .l v).h = s.h := rfl
@[simp] theorem setReg_l_l : (s.setReg .l v).l = v := rfl

@[simp] theorem setReg_f (r : Reg8) : (s.setReg r v).f = s.f := by cases r <;> rfl
@[simp] theorem setReg_params (r : Reg8) : (s.setReg r v).params = s.params := by cases r <;> rfl
@[simp] theorem setReg_resetSeen (r : Reg8) : (s.setReg r v).resetSeen = s.resetSeen := by cases r <;> rfl
@[simp] theorem setReg_inputs (r : Reg8) : (s.setReg r v).inputs = s.inputs := by cases r <;> rfl
@[simp] theorem setReg_report (r : Reg8) : (s.setReg r v).report = s.report := by cases r <;> rfl

/-- A register write is read back from that register, and from no other. -/
theorem reg_setReg (r q : Reg8) : (s.setReg r v).reg q = if q = r then v else s.reg q := by
  cases r <;> cases q <;> rfl

@[simp] theorem setFlags_a : (s.setFlags f).a = s.a := rfl
@[simp] theorem setFlags_b : (s.setFlags f).b = s.b := rfl
@[simp] theorem setFlags_c : (s.setFlags f).c = s.c := rfl
@[simp] theorem setFlags_d : (s.setFlags f).d = s.d := rfl
@[simp] theorem setFlags_e : (s.setFlags f).e = s.e := rfl
@[simp] theorem setFlags_h : (s.setFlags f).h = s.h := rfl
@[simp] theorem setFlags_l : (s.setFlags f).l = s.l := rfl
@[simp] theorem setFlags_f : (s.setFlags f).f = f := rfl
@[simp] theorem setFlags_params : (s.setFlags f).params = s.params := rfl
@[simp] theorem setFlags_resetSeen : (s.setFlags f).resetSeen = s.resetSeen := rfl
@[simp] theorem setFlags_inputs : (s.setFlags f).inputs = s.inputs := rfl
@[simp] theorem setFlags_report : (s.setFlags f).report = s.report := rfl

@[simp] theorem setReport_a : (s.setReport p).a = s.a := rfl
@[simp] theorem setReport_b : (s.setReport p).b = s.b := rfl
@[simp] theorem setReport_c : (s.setReport p).c = s.c := rfl
@[simp] theorem setReport_d : (s.setReport p).d = s.d := rfl
@[simp] theorem setReport_e : (s.setReport p).e = s.e := rfl
@[simp] theorem setReport_h : (s.setReport p).h = s.h := rfl
@[simp] theorem setReport_l : (s.setReport p).l = s.l := rfl
@[simp] theorem setReport_f : (s.setReport p).f = s.f := rfl
@[simp] theorem setReport_params : (s.setReport p).params = s.params := rfl
@[simp] theorem setReport_resetSeen : (s.setReport p).resetSeen = s.resetSeen := rfl
@[simp] theorem setReport_inputs : (s.setReport p).inputs = s.inputs := rfl
@[simp] theorem setReport_report : (s.setReport p).report = p := rfl

@[simp] theorem advance_a : (s.advance).a = s.a := rfl
@[simp] theorem advance_b : (s.advance).b = s.b := rfl
@[simp] theorem advance_c : (s.advance).c = s.c := rfl
@[simp] theorem advance_d : (s.advance).d = s.d := rfl
@[simp] theorem advance_e : (s.advance).e = s.e := rfl
@[simp] theorem advance_h : (s.advance).h = s.h := rfl
@[simp] theorem advance_l : (s.advance).l = s.l := rfl
@[simp] theorem advance_f : (s.advance).f = s.f := rfl
@[simp] theorem advance_params : (s.advance).params = s.params := rfl
@[simp] theorem advance_resetSeen : (s.advance).resetSeen = s.resetSeen := rfl
@[simp] theorem advance_inputs : (s.advance).inputs = s.inputs.tail := rfl
@[simp] theorem advance_report : (s.advance).report = s.report := rfl

@[simp] theorem drive_a : (s.drive x).a = s.a := rfl
@[simp] theorem drive_b : (s.drive x).b = s.b := rfl
@[simp] theorem drive_c : (s.drive x).c = s.c := rfl
@[simp] theorem drive_d : (s.drive x).d = s.d := rfl
@[simp] theorem drive_e : (s.drive x).e = s.e := rfl
@[simp] theorem drive_h : (s.drive x).h = s.h := rfl
@[simp] theorem drive_l : (s.drive x).l = s.l := rfl
@[simp] theorem drive_f : (s.drive x).f = s.f := rfl
@[simp] theorem drive_params : (s.drive x).params = s.params := rfl
@[simp] theorem drive_resetSeen : (s.drive x).resetSeen = s.resetSeen := rfl
@[simp] theorem drive_inputs : (s.drive x).inputs = x :: s.inputs := rfl
@[simp] theorem drive_report : (s.drive x).report = s.report := rfl

/-- A register is read as before after an update of anything else. -/
@[simp] theorem reg_setFlags (r : Reg8) : (s.setFlags f).reg r = s.reg r := by cases r <;> rfl
@[simp] theorem reg_setReport (r : Reg8) : (s.setReport p).reg r = s.reg r := by cases r <;> rfl
@[simp] theorem reg_advance (r : Reg8) : s.advance.reg r = s.reg r := by cases r <;> rfl
@[simp] theorem reg_drive (r : Reg8) : (s.drive x).reg r = s.reg r := by cases r <;> rfl

@[simp] theorem resetAll_a : s.resetAll.a = 0x00#8 := rfl
@[simp] theorem resetAll_b : s.resetAll.b = 0x00#8 := rfl
@[simp] theorem resetAll_c : s.resetAll.c = 0x00#8 := rfl
@[simp] theorem resetAll_d : s.resetAll.d = 0x00#8 := rfl
@[simp] theorem resetAll_e : s.resetAll.e = 0x00#8 := rfl
@[simp] theorem resetAll_h : s.resetAll.h = 0x00#8 := rfl
@[simp] theorem resetAll_l : s.resetAll.l = 0x00#8 := rfl
@[simp] theorem resetAll_f : s.resetAll.f = Flags.clear := rfl
@[simp] theorem resetAll_params : s.resetAll.params = s.params := rfl
@[simp] theorem resetAll_resetSeen : s.resetAll.resetSeen = true := rfl
@[simp] theorem resetAll_inputs : s.resetAll.inputs = s.inputs := rfl
@[simp] theorem resetAll_report : s.resetAll.report = .done := rfl

@[simp] theorem edge_drive : (s.drive x).edge = x := rfl
@[simp] theorem advance_drive : (s.drive x).advance = s := rfl

/-- The next edge is the head of the host's list, and it is idle where the list is empty. -/
theorem edge_of_inputs (rest : List Edge) (h : s.inputs = x :: rest) : s.edge = x := by simp [State.edge, h]
theorem edge_of_no_inputs (h : s.inputs = []) : s.edge = idleEdge := by simp [State.edge, h]

end Sys2Proof.Machine
end

