-- ==== Sys2Proof/Laws/Ops.lean ====
section
/-! SUPPORT. One lemma per shared operation that says everything it can do. Proofs about a step cite these
instead of unfolding the operations. -/

namespace Sys2Proof.Machine

theorem afterReset_seen {s : State} {act : State → StepOutcome} (h : s.resetSeen = true) :
    afterReset s act = act s := by simp [afterReset, h]

theorem afterReset_unseen {s : State} {act : State → StepOutcome} (h : s.resetSeen = false) :
    afterReset s act = .refused .notYetReset := by simp [afterReset, h]

/-- An operation that answers a next state ran on a block that had been reset. -/
theorem afterReset_next {s t : State} {act : State → StepOutcome} (h : afterReset s act = .next t) :
    s.resetSeen = true ∧ act s = .next t := by
  cases hs : s.resetSeen
  · simp [afterReset_unseen hs] at h
  · exact ⟨rfl, by simpa [afterReset_seen hs] using h⟩

/-- A commit writes A, the four flags and the report, and nothing else (R97). -/
theorem commit_eq (s : State) (out : AluOut) : s.commit out = { s with a := out.res, f := out.flags, report := .done } := rfl
@[simp] theorem commit_a (s : State) (out : AluOut) : (s.commit out).a = out.res := rfl
@[simp] theorem commit_b (s : State) (out : AluOut) : (s.commit out).b = s.b := rfl
@[simp] theorem commit_c (s : State) (out : AluOut) : (s.commit out).c = s.c := rfl
@[simp] theorem commit_d (s : State) (out : AluOut) : (s.commit out).d = s.d := rfl
@[simp] theorem commit_e (s : State) (out : AluOut) : (s.commit out).e = s.e := rfl
@[simp] theorem commit_h (s : State) (out : AluOut) : (s.commit out).h = s.h := rfl
@[simp] theorem commit_l (s : State) (out : AluOut) : (s.commit out).l = s.l := rfl
@[simp] theorem commit_f (s : State) (out : AluOut) : (s.commit out).f = out.flags := rfl
@[simp] theorem commit_params (s : State) (out : AluOut) : (s.commit out).params = s.params := rfl
@[simp] theorem commit_resetSeen (s : State) (out : AluOut) : (s.commit out).resetSeen = s.resetSeen := rfl
@[simp] theorem commit_inputs (s : State) (out : AluOut) : (s.commit out).inputs = s.inputs := rfl
@[simp] theorem commit_report (s : State) (out : AluOut) : (s.commit out).report = .done := rfl

theorem unimplementedStep_next {s t : State} (h : unimplementedStep s = .next t) :
    s.resetSeen = true ∧ t = s.setReport .unimplemented := by
  obtain ⟨hs, h⟩ := afterReset_next h
  exact ⟨hs, by simpa using h.symm⟩

theorem idleStep_next {s t : State} (h : idleStep s = .next t) :
    s.resetSeen = true ∧ t = s.setReport .done := by
  obtain ⟨hs, h⟩ := afterReset_next h
  exact ⟨hs, by simpa using h.symm⟩

/-- Every row's meaning is the execute step of its pair `(op, sel)` (R94). -/
theorem exec_eq_executePair (i : Instr) (s : State) : exec i s = executePair i.op i.sel s := by cases i <;> rfl

theorem executePair_seen (op : AluOp) (r : Reg8) {s : State} (h : s.resetSeen = true) :
    executePair op r s =
      if wired s.params op r then .next (s.commit (alu op s.a (s.reg r))) else .next (s.setReport .unimplemented) :=
  afterReset_seen h

/-- What an execute step can do: commit where the pair is wired, report where it is not. -/
theorem executePair_next {op : AluOp} {r : Reg8} {s t : State} (h : executePair op r s = .next t) :
    s.resetSeen = true ∧
      ((wired s.params op r = true ∧ t = s.commit (alu op s.a (s.reg r))) ∨
       (wired s.params op r = false ∧ t = s.setReport .unimplemented)) := by
  obtain ⟨hs, h⟩ := afterReset_next h
  refine ⟨hs, ?_⟩
  cases hw : wired s.params op r
  · exact .inr ⟨rfl, by simpa [hw] using h.symm⟩
  · exact .inl ⟨rfl, by simpa [hw] using h.symm⟩

/-- An execute step on a word is one test of `implemented` (R53, R94), whether or not the word decodes. -/
theorem executeWord_implemented {w : Byte} {s : State} (h : implemented s.params w = false) :
    executeWord w s = unimplementedStep s := by
  unfold implemented at h
  unfold executeWord
  split <;> simp_all [exec_eq_executePair, executePair, unimplementedStep, afterReset]

theorem executeWord_next {w : Byte} {s t : State} (h : executeWord w s = .next t) :
    s.resetSeen = true ∧
      ((∃ i, decode w = .ok i ∧ wired s.params i.op i.sel = true ∧ t = s.commit (alu i.op s.a (s.reg i.sel))) ∨
       (implemented s.params w = false ∧ t = s.setReport .unimplemented)) := by
  unfold executeWord at h
  split at h
  · rename_i i hi
    rw [exec_eq_executePair] at h
    obtain ⟨hs, ⟨hw, ht⟩ | ⟨hw, ht⟩⟩ := executePair_next h
    · exact ⟨hs, .inl ⟨i, hi, hw, ht⟩⟩
    · exact ⟨hs, .inr ⟨by simpa [implemented, hi] using hw, ht⟩⟩
  · rename_i why hi
    obtain ⟨hs, ht⟩ := unimplementedStep_next h
    exact ⟨hs, .inr ⟨by simp [implemented, hi], ht⟩⟩

/-- A write select names no target exactly where it is above 0xB (R57, R84). -/
theorem writeRule_none_iff (sel : BitVec 4) (v : Word) (s : State) :
    writeRule sel v s = none ↔ 0xB < sel.toNat := by
  unfold writeRule
  split <;> simp_all
  omega

/-- A host write changes nothing of the model's own fields. -/
theorem writeRule_keeps {sel : BitVec 4} {v : Word} {s t : State} (h : writeRule sel v s = some t) :
    t.params = s.params ∧ t.resetSeen = s.resetSeen ∧ t.inputs = s.inputs ∧ t.report = s.report := by
  unfold writeRule at h
  split at h <;> simp at h <;> subst h <;> exact ⟨rfl, rfl, rfl, rfl⟩

theorem hostWrite_next {sel : BitVec 4} {v : Word} {s t : State} (h : hostWrite sel v s = .next t) :
    s.resetSeen = true ∧ ∃ u, writeRule sel v s = some u ∧ t = u.setReport .done := by
  obtain ⟨hs, h⟩ := afterReset_next h
  refine ⟨hs, ?_⟩
  split at h
  · rename_i u hu
    exact ⟨u, hu, by simpa using h.symm⟩
  · cases h

end Sys2Proof.Machine
end

