-- ==== Sys2Proof/Laws/Step.lean ====
section
/-! SUPPORT. What one step can do, said once: the five cases of spec/60_exceptions.md R119. -/

namespace Sys2Proof.Machine

theorem step_reset {s : State} (h : s.edge.rst = true) : step s = .next s.advance.resetAll := by
  simp [step, edgeStep, h]

theorem step_collision {s : State} (h : s.edge.rst = false) (hx : s.edge.execValid = true) (hw : s.edge.wrEn = true) :
    step s = .refused .edgeCollision := by simp [step, edgeStep, h, hx, hw]

theorem step_execute {s : State} (h : s.edge.rst = false) (hx : s.edge.execValid = true) (hw : s.edge.wrEn = false) :
    step s = executeWord s.edge.insn s.advance := by simp [step, edgeStep, h, hx, hw]

theorem step_write {s : State} (h : s.edge.rst = false) (hx : s.edge.execValid = false) (hw : s.edge.wrEn = true) :
    step s = hostWrite s.edge.wrSel s.edge.wrData s.advance := by simp [step, edgeStep, h, hx, hw]

theorem step_idle {s : State} (h : s.edge.rst = false) (hx : s.edge.execValid = false) (hw : s.edge.wrEn = false) :
    step s = idleStep s.advance := by simp [step, edgeStep, h, hx, hw]

/-- Everything a step that answers a next state can have done. -/
theorem step_cases {s t : State} (h : step s = .next t) :
    (s.edge.rst = true ∧ t = s.advance.resetAll) ∨
    (s.edge.rst = false ∧ s.resetSeen = true ∧
      ((s.edge.execValid = true ∧ s.edge.wrEn = false ∧
          ∃ i, decode s.edge.insn = .ok i ∧ wired s.params i.op i.sel = true ∧
            t = s.advance.commit (alu i.op s.a (s.reg i.sel))) ∨
       (s.edge.execValid = true ∧ s.edge.wrEn = false ∧ implemented s.params s.edge.insn = false ∧
          t = s.advance.setReport .unimplemented) ∨
       (s.edge.execValid = false ∧ s.edge.wrEn = true ∧
          ∃ u, writeRule s.edge.wrSel s.edge.wrData s.advance = some u ∧ t = u.setReport .done) ∨
       (s.edge.execValid = false ∧ s.edge.wrEn = false ∧ t = s.advance.setReport .done))) := by
  cases hr : s.edge.rst
  · cases hx : s.edge.execValid <;> cases hw : s.edge.wrEn
    · rw [step_idle hr hx hw] at h
      obtain ⟨hs, ht⟩ := idleStep_next h
      exact .inr ⟨rfl, hs, .inr (.inr (.inr ⟨rfl, rfl, ht⟩))⟩
    · rw [step_write hr hx hw] at h
      obtain ⟨hs, hu⟩ := hostWrite_next h
      exact .inr ⟨rfl, hs, .inr (.inr (.inl ⟨rfl, rfl, hu⟩))⟩
    · rw [step_execute hr hx hw] at h
      obtain ⟨hs, hi | ⟨hi, ht⟩⟩ := executeWord_next h
      · exact .inr ⟨rfl, hs, .inl ⟨rfl, rfl, by simpa using hi⟩⟩
      · exact .inr ⟨rfl, hs, .inr (.inl ⟨rfl, rfl, by simpa using hi, ht⟩)⟩
    · simp [step_collision hr hx hw] at h
  · rw [step_reset hr] at h
    exact .inl ⟨rfl, by simpa using h.symm⟩

/-- A run of `k + 1` edges is one step and then a run of `k`. -/
theorem run_succ (k : Nat) (s : State) :
    run (k + 1) s = match step s with
      | .next t => run k t
      | .fault r => .fault r
      | .refused r => .refused r := by
  have h : Sys2Proof.core.step s = step s := rfl
  refine (Host.Core.run.eq_2 Sys2Proof.core s k).trans ?_
  rw [h]
  cases step s <;> rfl

@[simp] theorem run_zero (s : State) : run 0 s = .next s := rfl

/-- An invariant of the step is an invariant of a run. -/
theorem run_keeps {P : State → Prop} (hstep : ∀ s t, P s → step s = .next t → P t) :
    ∀ k s t, P s → run k s = .next t → P t := by
  intro k
  induction k with
  | zero => intro s t hs h; simp at h; exact h ▸ hs
  | succ k ih =>
    intro s t hs h
    rw [run_succ] at h
    split at h
    · rename_i u hu; exact ih u t (hstep s u hs hu) h
    · cases h
    · cases h

end Sys2Proof.Machine
end

