-- ==== Sys2Proof/Laws/PerInstr.lean ====
section
/-! SUPPORT. Statements about every instruction as syntax, one lemma per constructor of `Instr`. -/

namespace Sys2Proof.Laws.EncodedFields

/-- The encoded word has the group of R49, the operation code of R51 and the selector code of R50, and it is one
that the decoder's checks accept. -/
def Statement (i : Instr) : Prop :=
  grpField (encode i) = 0b10#2 ∧ operation (opcField (encode i)) = some i.op ∧
    selector (rselField (encode i)) = some i.sel ∧ insnWf (encode i) = true

theorem addAB : Statement .addAB := by unfold Statement; decide
theorem addAC : Statement .addAC := by unfold Statement; decide
theorem addAD : Statement .addAD := by unfold Statement; decide
theorem addAE : Statement .addAE := by unfold Statement; decide
theorem addAH : Statement .addAH := by unfold Statement; decide
theorem addAL : Statement .addAL := by unfold Statement; decide
theorem addAA : Statement .addAA := by unfold Statement; decide
theorem subB : Statement .subB := by unfold Statement; decide
theorem subC : Statement .subC := by unfold Statement; decide
theorem subD : Statement .subD := by unfold Statement; decide
theorem subE : Statement .subE := by unfold Statement; decide
theorem subH : Statement .subH := by unfold Statement; decide
theorem subL : Statement .subL := by unfold Statement; decide
theorem subA : Statement .subA := by unfold Statement; decide

end Sys2Proof.Laws.EncodedFields
end

