-- ==== Sys2Proof/Tests/Slice0.lean ====
section
/-! SUPPORT. Tests. Every expected value comes from spec/: the worked examples of the rules and the vectors of
spec/95_test_vectors.md. The second half shows, for each statement with hypotheses, a state that meets them. -/

namespace Sys2Proof.Tests

open Sys2Proof Sys2Proof.Machine Sys2Proof.Claims

/-- The next state of an outcome, so that outcomes can be compared. -/
def stateOf : StepOutcome → Option State
  | .next t => some t
  | _       => none

/-- The refusal of an outcome. -/
def refusalOf : StepOutcome → Option Refusal
  | .refused r => some r
  | _          => none

/-- A, Fbyte and the report after an outcome. -/
def result (o : StepOutcome) : Option (Byte × Byte × Report) := (stateOf o).map fun t => (t.a, t.fbyte, t.report)

/-- A block after reset with every selector wired, and A set. -/
def wiredBlock (a : Byte) : State := { State.reset with a := a, params := ⟨SelectorSet.full, SelectorSet.full⟩ }

/-- A block that was never reset. -/
def coldBlock (a : Byte) : State := { State.reset with a := a, resetSeen := false }

/-- An edge that executes 0x81 and writes A at once, without `rst`. -/
def collisionEdge : Edge := Edge.mk false true 0x81#8 true 0x0#4 0x0000#16

/-- A block after reset, at an edge that executes `w`. -/
def atExecute (w : Byte) : State := State.reset.drive (executeEdge w)

/-- A block after reset, at an edge that writes `v` to `sel`. -/
def atWrite (sel : BitVec 4) (v : Word) : State := State.reset.drive (writeEdge sel v)

/-! ## Well-formedness: an ill-formed word or edge for each check -/

theorem smoke_group : insnGroupOk 0x40#8 = false ∧ insnWf 0x40#8 = false := by decide
theorem smoke_selector : insnSelectorOk 0x86#8 = false ∧ insnWf 0x86#8 = false := by decide
theorem smoke_operation : insnOperationOk 0x88#8 = false ∧ insnWf 0x88#8 = false := by decide
theorem smoke_collision :
    collisionEdge.noCollision = false ∧ collisionEdge.wf = false := by decide
theorem smoke_write_select :
    Edge.writeSelectOk (writeEdge 0xC#4 0x0000#16) = false ∧ Edge.wf (writeEdge 0xC#4 0x0000#16) = false := by decide
theorem smoke_accepted : insnWf 0x81#8 = true ∧ Edge.wf (executeEdge 0x86#8) = true ∧
    Edge.wf (writeEdge 0xB#4 0xFFFF#16) = true ∧ Edge.wf (Edge.mk true true 0x81#8 true 0xC#4 0x0000#16) = true := by
  decide

/-! ## Decoding (R60 and spec/95_test_vectors.md 2.6) -/

theorem test_decode_addAB : decode 0b10_000_000#8 = .ok .addAB ∧ encode .addAB = 0b10_000_000#8 := by decide
theorem test_decode_addAC : decode 0b10_000_001#8 = .ok .addAC ∧ encode .addAC = 0b10_000_001#8 := by decide
theorem test_decode_addAD : decode 0b10_000_010#8 = .ok .addAD ∧ encode .addAD = 0b10_000_010#8 := by decide
theorem test_decode_addAE : decode 0b10_000_011#8 = .ok .addAE ∧ encode .addAE = 0b10_000_011#8 := by decide
theorem test_decode_addAH : decode 0b10_000_100#8 = .ok .addAH ∧ encode .addAH = 0b10_000_100#8 := by decide
theorem test_decode_addAL : decode 0b10_000_101#8 = .ok .addAL ∧ encode .addAL = 0b10_000_101#8 := by decide
theorem test_decode_addAA : decode 0b10_000_111#8 = .ok .addAA ∧ encode .addAA = 0b10_000_111#8 := by decide
theorem test_decode_subB : decode 0b10_010_000#8 = .ok .subB ∧ encode .subB = 0b10_010_000#8 := by decide
theorem test_decode_subC : decode 0b10_010_001#8 = .ok .subC ∧ encode .subC = 0b10_010_001#8 := by decide
theorem test_decode_subD : decode 0b10_010_010#8 = .ok .subD ∧ encode .subD = 0b10_010_010#8 := by decide
theorem test_decode_subE : decode 0b10_010_011#8 = .ok .subE ∧ encode .subE = 0b10_010_011#8 := by decide
theorem test_decode_subH : decode 0b10_010_100#8 = .ok .subH ∧ encode .subH = 0b10_010_100#8 := by decide
theorem test_decode_subL : decode 0b10_010_101#8 = .ok .subL ∧ encode .subL = 0b10_010_101#8 := by decide
theorem test_decode_subA : decode 0b10_010_111#8 = .ok .subA ∧ encode .subA = 0b10_010_111#8 := by decide
theorem test_decode_none : decode 0x00#8 = .error .wrongGroup ∧ decode 0x40#8 = .error .wrongGroup ∧
    decode 0x86#8 = .error .noSelector ∧ decode 0x88#8 = .error .reservedOperation ∧
    decode 0x96#8 = .error .noSelector ∧ decode 0x98#8 = .error .reservedOperation ∧
    decode 0xBF#8 = .error .reservedOperation ∧ decode 0xC6#8 = .error .wrongGroup ∧
    decode 0xFF#8 = .error .wrongGroup := by decide
theorem test_decodeTableWord : decodeTableWord 8 0x81 = some .addAC ∧ decodeTableWord 8 0x86 = none ∧
    decodeTableWord 16 0x81 = none := by decide
theorem test_withFetchWord : result (step (State.reset.withFetchWord 8 0x81)) = some (0x00#8, 0x80#8, .done) := by
  decide

/-! ## Instructions (the examples of R98 to R111, and the corners of 2.4, 2.5 and 2.7) -/

theorem test_addAB : result (exec .addAB { wiredBlock 0x3A#8 with b := 0xC6#8 }) = some (0x00#8, 0xB0#8, .done) := by decide
theorem test_addAC : result (exec .addAC { State.reset with a := 0x0A#8, c := 0x05#8 }) = some (0x0F#8, 0x00#8, .done) := by decide
theorem test_addAD : result (exec .addAD { wiredBlock 0x0F#8 with d := 0x01#8 }) = some (0x10#8, 0x20#8, .done) := by decide
theorem test_addAE : result (exec .addAE { wiredBlock 0x80#8 with e := 0x80#8 }) = some (0x00#8, 0x90#8, .done) := by decide
theorem test_addAH : result (exec .addAH { wiredBlock 0x7F#8 with h := 0x01#8 }) = some (0x80#8, 0x20#8, .done) := by decide
theorem test_addAL : result (exec .addAL { wiredBlock 0xF0#8 with l := 0x20#8 }) = some (0x10#8, 0x10#8, .done) := by decide
theorem test_addAA : result (exec .addAA (wiredBlock 0x88#8)) = some (0x10#8, 0x30#8, .done) := by decide
theorem test_subB : result (exec .subB { wiredBlock 0x3E#8 with b := 0x3E#8 }) = some (0x00#8, 0xC0#8, .done) := by decide
theorem test_subC : result (exec .subC { wiredBlock 0x3E#8 with c := 0x0F#8 }) = some (0x2F#8, 0x60#8, .done) := by decide
theorem test_subD : result (exec .subD { wiredBlock 0x3E#8 with d := 0x40#8 }) = some (0xFE#8, 0x50#8, .done) := by decide
theorem test_subE : result (exec .subE { wiredBlock 0x00#8 with e := 0x01#8 }) = some (0xFF#8, 0x70#8, .done) := by decide
theorem test_subH : result (exec .subH { wiredBlock 0x10#8 with h := 0x01#8 }) = some (0x0F#8, 0x60#8, .done) := by decide
theorem test_subL : result (exec .subL { wiredBlock 0x05#8 with l := 0x03#8 }) = some (0x02#8, 0x40#8, .done) := by decide
theorem test_subA : result (exec .subA (wiredBlock 0x5A#8)) = some (0x00#8, 0xC0#8, .done) := by decide
/-- Every flag is rewritten, N included (2.7). -/
theorem test_addAC_clears_flags :
    result (exec .addAC { State.reset with a := 0x12#8, f := Flags.fromByte 0xF0#8 }) =
      some (0x12#8, 0x00#8, .done) := by decide
/-- Not wired by default: nothing changes (2.7). -/
theorem test_addAB_unwired :
    result (exec .addAB { State.reset with a := 0x3A#8, b := 0xC6#8 }) =
      some (0x3A#8, 0x00#8, .unimplemented) := by decide
theorem test_subC_unwired :
    result (exec .subC { State.reset with a := 0x3E#8, c := 0x0F#8 }) =
      some (0x3E#8, 0x00#8, .unimplemented) := by decide
/-- A largest sum and a double borrow (2.4, 2.5). -/
theorem test_alu_corners : aluAdd 0xFF#8 0xFF#8 = ⟨0xFE#8, Flags.fromByte 0x30#8⟩ ∧
    aluAdd 0x0E#8 0x01#8 = ⟨0x0F#8, Flags.fromByte 0x00#8⟩ ∧
    aluSub 0x01#8 0xFF#8 = ⟨0x02#8, Flags.fromByte 0x70#8⟩ ∧
    aluSub 0x80#8 0x01#8 = ⟨0x7F#8, Flags.fromByte 0x60#8⟩ := by decide

/-! ## Edges (2.2, 2.3, 2.7, 2.8) -/

theorem test_flag_bytes : (Flags.fromByte 0xA5#8).toByte = 0xA0#8 ∧ Flags.fromByte 0x5A#8 = ⟨false, true, false, true⟩ := by
  decide
theorem test_execute_undecoded :
    result (step (atExecute 0x86#8)) = some (0x00#8, 0x00#8, .unimplemented) ∧ (atExecute 0x86#8).unimpl = true := by
  decide
theorem test_write_a : (stateOf (step (atWrite 0x0#4 0x1234#16))).map (·.a) = some 0x34#8 := by decide
theorem test_write_f : (stateOf (step (atWrite 0x1#4 0x00FF#16))).map (·.fbyte) = some 0xF0#8 := by decide
theorem test_write_af : (stateOf (step (atWrite 0x8#4 0xABCD#16))).map (·.af) = some 0xABC0#16 := by decide
theorem test_write_bc : (stateOf (step (atWrite 0x9#4 0xAA55#16))).map (fun t => (t.b, t.c)) = some (0xAA#8, 0x55#8) := by
  decide
theorem test_write_de : (stateOf (step (atWrite 0xA#4 0x0102#16))).map (fun t => (t.d, t.e)) = some (0x01#8, 0x02#8) := by
  decide
theorem test_write_hl : (stateOf (step (atWrite 0xB#4 0xC0DE#16))).map (fun t => (t.h, t.l)) = some (0xC0#8, 0xDE#8) := by
  decide
theorem test_write_reserved :
    refusalOf (step (atWrite 0xC#4 0x0000#16)) = some (.reservedWriteSelect 0xC#4) := by decide
theorem test_collision :
    refusalOf (step (State.reset.drive collisionEdge)) = some .edgeCollision := by decide
/-- Reset wins over an execute at the same edge (P6). -/
theorem test_reset_wins :
    stateOf (step (({ State.reset with a := 0x0A#8, c := 0x05#8 } : State).drive
      (Edge.mk true true 0x81#8 false 0x0#4 0x0000#16))) = some State.reset := by decide
theorem test_idle : stateOf (step { State.reset with a := 0x12#8 }) = some { State.reset with a := 0x12#8 } := by decide
theorem test_cold_refused : refusalOf (step ((coldBlock 0x12#8).drive (executeEdge 0x81#8))) = some .notYetReset := by
  decide
theorem test_outputs_af :
    (State.outputs { State.reset with a := 0x12#8, f := ⟨true, false, true, false⟩ }).toOption.map (·.afQ) =
      some 0x12A0#16 := by decide

/-! ## Hypotheses that can be met -/

theorem witness_FlagsUnpackFromHighNibble : (0x90#8 : Byte).toNat / 16 = (0x9F#8 : Byte).toNat / 16 := by decide
theorem witness_OutputsShowTheState : State.reset.resetSeen = true := by decide
theorem witness_OpcodeMapWords : (0x86#8 : Byte) ∉ [0x80#8, 0x81#8, 0x82#8, 0x83#8, 0x84#8, 0x85#8, 0x87#8,
    0x90#8, 0x91#8, 0x92#8, 0x93#8, 0x94#8, 0x95#8, 0x97#8] := by decide
theorem witness_DecodeInvertsEncode : decode 0x97#8 = .ok .subA := by decide
theorem witness_DispatchLevelsAreOrthogonal :
    decode 0x80#8 = .ok .addAB ∧ decode 0x87#8 = .ok .addAA ∧ decode 0x97#8 = .ok .subA ∧
      opcField 0x80#8 = opcField 0x87#8 ∧ rselField 0x87#8 = rselField 0x97#8 ∧
      Instr.op .addAB = Instr.op .addAA ∧ Instr.sel .addAA = Instr.sel .subA := by decide
/-- Every ADD and SUB row has a block on which it is wired and one on which it is not. -/
theorem witness_RowsExecute :
    (wiredBlock 0x01#8).resetSeen = true ∧ (wiredBlock 0x01#8).params.wiredAdd = SelectorSet.full ∧
      (wiredBlock 0x01#8).params.subSelectors = SelectorSet.full ∧
      ({ State.reset with params := ⟨SelectorSet.empty, SelectorSet.empty⟩ } : State).resetSeen = true ∧
      ({ State.reset with params := ⟨SelectorSet.empty, SelectorSet.empty⟩ } : State).params.wiredAdd =
        SelectorSet.empty ∧
      ({ State.reset with params := ⟨SelectorSet.empty, SelectorSet.empty⟩ } : State).params.subSelectors =
        SelectorSet.empty := by decide
/-- For InstructionFrame and InstructionsReadNoFlag: a wired and an unwired instruction that answer a next state. -/
theorem witness_InstructionFrame :
    (∃ t, exec .addAC State.reset = .next t ∧ wired State.reset.params .add .c = true) ∧
      ∃ t, exec .subA State.reset = .next t ∧ wired State.reset.params .sub .a = false :=
  ⟨⟨_, rfl, rfl⟩, _, rfl, rfl⟩
theorem witness_StepRunsDecodedInstruction :
    (atExecute 0x81#8).inputs = [executeEdge 0x81#8] ∧ (executeEdge 0x81#8).rst = false ∧
      (executeEdge 0x81#8).execValid = true ∧ (executeEdge 0x81#8).wrEn = false ∧
      decode (executeEdge 0x81#8).insn = .ok .addAC ∧ decodeTableWord 8 0x97 = some .subA := by decide
/-- For ExecuteStepCommits and UnimplementedChangesNothing: both clauses. -/
theorem witness_ExecuteStep :
    ((atExecute 0x81#8).resetSeen = true ∧ Executes (atExecute 0x81#8) ∧
        implemented (atExecute 0x81#8).params (atExecute 0x81#8).edge.insn = true ∧
        decodePair (atExecute 0x81#8).edge.insn = .ok (.add, .c)) ∧
      (atExecute 0x86#8).resetSeen = true ∧ Executes (atExecute 0x86#8) ∧
        implemented (atExecute 0x86#8).params (atExecute 0x86#8).edge.insn = false := by
  unfold Executes; decide
theorem witness_ReportFollowsUnimplOutput :
    (∃ t, step (atExecute 0x86#8) = .next t ∧ (atExecute 0x86#8).unimpl = true) ∧
      ∃ t, step (atExecute 0x81#8) = .next t ∧ (atExecute 0x81#8).unimpl = false := ⟨⟨_, rfl, rfl⟩, _, rfl, rfl⟩
theorem witness_ResetEdgeClearsEverything :
    ((coldBlock 0x12#8).drive resetEdge).edge.rst = true ∧ [resetEdge, resetEdge].length = 1 + 1 ∧
      (∀ x ∈ [resetEdge, resetEdge], x.rst = true) ∧
      (((coldBlock 0x12#8).drive resetEdge).drive resetEdge).inputs = [resetEdge, resetEdge] ++ [] := by decide
theorem witness_IdleEdgeChangesNothing : State.reset.resetSeen = true ∧ State.reset.edge.rst = false ∧
    State.reset.edge.execValid = false ∧ State.reset.edge.wrEn = false := by decide
/-- A state for each of the five clauses of EdgePriorityOrder, the collision's second part among them. -/
theorem witness_EdgePriorityOrder :
    resetEdge.rst = true ∧
      (collisionEdge.rst = false ∧ collisionEdge.execValid = true ∧ collisionEdge.wrEn = true ∧
        (State.reset.drive collisionEdge).inputs = [collisionEdge] ∧
        (State.reset.drive collisionEdge).resetSeen = true) ∧
      (executeEdge 0x81#8).rst = false ∧ (writeEdge 0x0#4 0x0000#16).rst = false ∧ (executeEdge 0x81#8).execValid = true ∧
      (executeEdge 0x81#8).wrEn = false ∧ (writeEdge 0x0#4 0x0000#16).wrEn = true ∧
      (writeEdge 0x0#4 0x0000#16).execValid = false ∧ idleEdge.rst = false ∧ idleEdge.execValid = false ∧
      idleEdge.wrEn = false ∧ (State.reset.drive idleEdge).inputs = [idleEdge] := by decide
/-- For CollisionRefusedExactly: a block that was reset and one that was not. -/
theorem witness_CollisionRefusedExactly :
    (State.reset.drive collisionEdge).resetSeen = true ∧ (State.reset.drive collisionEdge).edge = collisionEdge ∧
      ((coldBlock 0x12#8).drive collisionEdge).edge = collisionEdge ∧
      collisionEdge.rst = false ∧ collisionEdge.execValid = true ∧ collisionEdge.wrEn = true := by decide
theorem witness_ReservedWriteSelectRefused : (atWrite 0xC#4 0x0000#16).resetSeen = true ∧
    Writes (atWrite 0xC#4 0x0000#16) ∧ (atWrite 0xC#4 0x0000#16).edge.wrSel = 0xC#4 := by unfold Writes; decide
/-- For NothingBeforeReset and PowerUpValuesUnobservable. -/
theorem witness_BeforeReset :
    (coldBlock 0x00#8).resetSeen = false ∧ (coldBlock 0xFF#8).resetSeen = false ∧
      (coldBlock 0x00#8).params = (coldBlock 0xFF#8).params ∧ (coldBlock 0x00#8).inputs = (coldBlock 0xFF#8).inputs ∧
      (coldBlock 0x00#8).edge.rst = false ∧ (coldBlock 0x00#8).edge.noCollision = true ∧
      ((coldBlock 0x00#8).drive collisionEdge).edge.rst = false ∧
      ((coldBlock 0x00#8).drive collisionEdge).edge.noCollision = false ∧
      (stateOf (step ((coldBlock 0x00#8).drive resetEdge))).isSome = true := by decide
/-- For ByteWriteRules, PairWriteRules, PairWriteReadsBack and AfWriteLosesLowNibble: every select code. -/
theorem witness_WriteRules : ∀ sel : BitVec 4, WritesTo (atWrite sel 0xABCD#16) sel := fun _ => ⟨rfl, rfl, rfl, rfl, rfl⟩
/-- For WriteDataWidths: the boundary selects 0x7, 0x9 and 0xB. -/
theorem witness_WriteDataWidths :
    (writeEdge 0x7#4 0x1234#16).wrSel.toNat ≤ 0x7 ∧ (0x1234#16 : Word).toNat % 256 = (0xFF34#16 : Word).toNat % 256 ∧
      writeEdge 0x7#4 0xFF34#16 = { writeEdge 0x7#4 0x1234#16 with wrData := (writeEdge 0x7#4 0xFF34#16).wrData } ∧
      0x9 ≤ (writeEdge 0x9#4 0x1234#16).wrSel.toNat ∧ (writeEdge 0xB#4 0x1234#16).wrSel.toNat ≤ 0xB := by decide
theorem witness_HostWritesAreIdempotent :
    ∃ t, step (State.reset.drive (writeEdge 0x8#4 0x12FF#16)) = .next t ∧
      writeEdge 0x8#4 0x12F0#16 =
        { writeEdge 0x8#4 0x12FF#16 with wrData := (writeEdge 0x8#4 0x12FF#16).wrData &&& 0xFFF0#16 } :=
  ⟨_, rfl, by decide⟩
/-- For FlagWriters and RegisterWriters: a step of each kind that answers a next state. -/
theorem witness_Writers :
    (∃ t, step (State.reset.drive resetEdge) = .next t) ∧ (∃ t, step (atExecute 0x81#8) = .next t ∧ t.f ≠ (atExecute 0x81#8).f) ∧
      (∃ t, step (atWrite 0x1#4 0x00FF#16) = .next t ∧ t.f ≠ (atWrite 0x1#4 0x00FF#16).f) ∧
      (∃ t, step (atWrite 0x8#4 0x12FF#16) = .next t ∧ t.a ≠ (atWrite 0x8#4 0x12FF#16).a) ∧
      (∃ t, step (atWrite 0x9#4 0x12FF#16) = .next t ∧ t.b ≠ (atWrite 0x9#4 0x12FF#16).b) :=
  ⟨⟨_, rfl⟩, ⟨_, rfl, by decide⟩, ⟨_, rfl, by decide⟩, ⟨_, rfl, by decide⟩, _, rfl, by decide⟩
/-- For the statements about ready blocks: one with a reset, a write and an execute still to come. -/
theorem witness_Ready :
    State.Ready { State.reset with inputs := [resetEdge, writeEdge 0xB#4 0xBEEF#16, executeEdge 0x81#8] } ∧
      ∀ x ∈ [resetEdge, writeEdge 0xB#4 0xBEEF#16, executeEdge 0x81#8].take 3,
        x.rst = true ∨ x.execValid = false ∨ implemented Params.default x.insn = true := by
  refine ⟨⟨rfl, ?_⟩, ?_⟩ <;> decide
theorem witness_ParametersNeverChange : ∃ t, run 2 (atExecute 0x81#8) = .next t := ⟨_, rfl⟩
theorem witness_FlagsNeverReachData :
    SameButFlags State.reset { State.reset with f := Flags.fromByte 0xF0#8 } ∧
      State.reset.f ≠ Flags.fromByte 0xF0#8 := ⟨rfl, by decide⟩
theorem witness_DependentAddsNeedNoSpacing :
    let s := (atExecute 0x81#8).drive (executeEdge 0x81#8)
    s.resetSeen = true ∧ s.params.wiredAdd.c = true ∧ s.inputs = executeEdge 0x81#8 :: executeEdge 0x81#8 :: [] := by
  decide

end Sys2Proof.Tests
end

section
/-! PROOFS. What the flags are after one step, by the kind of edge (spec/10_state.md R27), and what the output
ports show (R31). -/

namespace Sys2Proof.Machine

open Sys2Proof.Claims

/-! ## The values that are loaded into the flags -/

/-- `from_byte` of the model is R62 bit by bit. -/
theorem fromByte_eq_flagsOf (v : Byte) : Flags.fromByte v = flagsOf v := rfl

/-- `wr_data[7:0]` in natural-number arithmetic (R58). -/
theorem lowByte_eq_ofNat_mod (v : Word) : lowByte v = BitVec.ofNat 8 (v.toNat % 256) :=
  BitVec.eq_of_toNat_eq (by simp [lowByte])

/-- N tells the operation of the alu_result_path: 0 for ADD (R90), 1 for SUB (R92). -/
theorem alu_flags_n_iff (op : AluOp) (a v : Byte) : (alu op a v).flags.n = true ↔ op = .sub := by
  cases op
  case add => simp [alu, aluAdd, addFlags]
  case sub => simp [alu, aluSub, subFlags]

/-- A word that decodes is implemented exactly where its instruction is wired (R53). -/
theorem implemented_of_decode {w : Byte} {i : Instr} (p : Params) (h : decode w = .ok i) :
    implemented p w = wired p i.op i.sel := by simp [implemented, h]

/-- Of the twelve write rules, only those of F (0x1) and AF (0x8) write the flags (R73, R80). -/
theorem writeRule_f {sel : BitVec 4} {v : Word} {s t : State} (h : writeRule sel v s = some t) :
    t.f = if sel = 0x1#4 ∨ sel = 0x8#4 then Flags.fromByte (lowByte v) else s.f := by
  unfold writeRule at h
  split at h
  case h_13 => cases h
  all_goals
    rename_i hsel
    obtain rfl := Option.some.inj h
    simp [← BitVec.toNat_inj, hsel, writeA, writeF, writeB, writeC, writeD, writeE, writeH, writeL, writeAF,
      writeBC, writeDE, writeHL]

/-! ## The flags after one step -/

section

variable {s t : State} (h : step s = .next t)
include h

theorem step_reset_f (hr : s.edge.rst = true) : t.f = Flags.clear := by
  rw [step_reset hr] at h
  cases h
  rfl

/-- A wired instruction loads the four flags of the alu_result_path on the operands as they stand before the
edge (R97, R135). -/
theorem step_wired_f {i : Instr} (hx : Executes s) (hi : decode s.edge.insn = .ok i)
    (hw : wired s.params i.op i.sel = true) : t.f = (alu i.op s.a (s.reg i.sel)).flags := by
  obtain ⟨hrst, hexec, hwr⟩ := hx
  rw [step_execute hrst hexec hwr] at h
  obtain ⟨-, ⟨j, hj, -, rfl⟩ | ⟨hun, -⟩⟩ := executeWord_next h
  · cases hi.symm.trans hj
    simp
  · rw [implemented_of_decode _ hi, advance_params, hw] at hun
    cases hun

/-- A host write loads the flags where it names F or AF, and keeps them where it names anything else (R66). -/
theorem step_write_f (hw : Writes s) :
    t.f = if s.edge.wrSel = 0x1#4 ∨ s.edge.wrSel = 0x8#4 then Flags.fromByte (lowByte s.edge.wrData) else s.f := by
  obtain ⟨hrst, hexec, hwr⟩ := hw
  rw [step_write hrst hexec hwr] at h
  obtain ⟨-, u, hu, rfl⟩ := hostWrite_next h
  rw [setReport_f, writeRule_f hu, advance_f]

/-- No edge but a reset, an implemented execute, or a host write to F or AF changes a flag (R27). -/
theorem step_f_changed (hne : t.f ≠ s.f) :
    s.edge.rst = true ∨ (Executes s ∧ implemented s.params s.edge.insn = true) ∨
      (Writes s ∧ (s.edge.wrSel = 0x1#4 ∨ s.edge.wrSel = 0x8#4)) := by
  obtain ⟨hrst, -⟩ | ⟨hrst, -, ⟨hexec, hwr, i, hi, hw, -⟩ | ⟨-, -, -, rfl⟩ | ⟨hexec, hwr, -⟩ | ⟨-, -, rfl⟩⟩ :=
    step_cases h
  · exact .inl hrst
  · exact .inr (.inl ⟨⟨hrst, hexec, hwr⟩, (implemented_of_decode _ hi).trans hw⟩)
  · exact absurd rfl hne
  · have hwrites : Writes s := ⟨hrst, hexec, hwr⟩
    refine .inr (.inr ⟨hwrites, ?_⟩)
    by_contra hsel
    exact hne ((step_write_f h hwrites).trans (if_neg hsel))
  · exact absurd rfl hne

end

/-- Settles O38: one lemma for each kind of edge that writes the flags, and one for all the others. -/
theorem flagWriters : Obligations.FlagWriters := by
  unfold Obligations.FlagWriters
  intro s t h
  refine ⟨step_reset_f h, ?executes, ?writes, step_f_changed h⟩
  case executes =>
    intro i hx hi hw
    have hf := step_wired_f h hx hi hw
    exact ⟨hf, by rw [hf]; exact alu_flags_n_iff ..⟩
  case writes =>
    intro hw hsel
    rw [step_write_f h hw, if_pos hsel, fromByte_eq_flagsOf, lowByte_eq_ofNat_mod]

/-! ## The output ports -/

/-- `unimpl` as the formula of R31 over the inputs of the next edge. -/
theorem unimpl_iff (s : State) :
    s.unimpl = true ↔ s.edge.execValid = true ∧ s.edge.rst = false ∧ s.edge.wrEn = false ∧
      implemented s.params s.edge.insn = false := by simp [State.unimpl, and_assoc]

/-- Settles O6: after reset the outputs are the record of R31, and `unimpl` is the one that is no piece of state. -/
theorem outputsShowTheState : Obligations.OutputsShowTheState := by
  unfold Obligations.OutputsShowTheState
  intro s hs
  refine ⟨_, if_pos hs, ?registers, rfl, ?views, ?flags, unimpl_iff s⟩
  case registers => exact ⟨rfl, rfl, rfl, rfl, rfl, rfl, rfl⟩
  case views => exact ⟨rfl, rfl, rfl, rfl⟩
  case flags => exact ⟨rfl, rfl, rfl, rfl⟩

end Sys2Proof.Machine
end

section
/-! PROOFS. What the decoder answers on every one of the 256 words (spec/30_encoding.md R49 to R52, R60), and which
words are implemented (R53). -/

namespace Sys2Proof.Machine

/-! ## The three fields of a word (R49) -/

theorem grpField_toNat (w : Byte) : (grpField w).toNat = w.toNat / 64 := by
  have hlt : w.toNat / 64 < 4 := by omega
  simpa [grpField, Nat.shiftRight_eq_div_pow] using hlt

theorem opcField_toNat (w : Byte) : (opcField w).toNat = w.toNat / 8 % 8 := by
  simp [opcField, Nat.shiftRight_eq_div_pow]

theorem rselField_toNat (w : Byte) : (rselField w).toNat = w.toNat % 8 := by
  simp [rselField]

/-- The three fields cover the word: no bit is outside them. -/
theorem eq_of_fields_eq {w u : Byte} (hgrp : grpField w = grpField u) (hopc : opcField w = opcField u)
    (hrsel : rselField w = rselField u) : w = u := by
  simp only [← BitVec.toNat_inj, grpField_toNat, opcField_toNat, rselField_toNat] at hgrp hopc hrsel ⊢
  omega

/-! ## The codes of R50 and R51 -/

theorem selector_eq_some_iff (x : BitVec 3) (r : Reg8) : selector x = some r ↔ x = selCode r := by
  cases r <;> revert x <;> decide

theorem operation_eq_some_iff (x : BitVec 3) (op : AluOp) : operation x = some op ↔ x = opCode op := by
  cases op <;> revert x <;> decide

/-! ## The decoder (R52) -/

theorem decodePair_eq_ok_iff (w : Byte) (op : AluOp) (r : Reg8) :
    decodePair w = .ok (op, r) ↔ grpField w = 0b10#2 ∧ opcField w = opCode op ∧ rselField w = selCode r := by
  rw [← operation_eq_some_iff, ← selector_eq_some_iff]
  unfold decodePair
  by_cases hgrp : grpField w = 0b10#2
  · cases selector (rselField w) <;> cases operation (opcField w) <;> simp [hgrp]
  · simp [hgrp]

theorem ofPair_op (op : AluOp) (r : Reg8) : (Instr.ofPair op r).op = op := by cases op <;> cases r <;> rfl

theorem ofPair_sel (op : AluOp) (r : Reg8) : (Instr.ofPair op r).sel = r := by cases op <;> cases r <;> rfl

/-- Every row of the map is the row of its own pair `(op, sel)` (R48). -/
theorem ofPair_op_sel (i : Instr) : Instr.ofPair i.op i.sel = i := by cases i <;> rfl

theorem ofPair_eq_iff (op : AluOp) (r : Reg8) (i : Instr) : Instr.ofPair op r = i ↔ op = i.op ∧ r = i.sel := by
  constructor
  · rintro rfl
    exact ⟨(ofPair_op op r).symm, (ofPair_sel op r).symm⟩
  · rintro ⟨rfl, rfl⟩
    exact ofPair_op_sel i

theorem decode_eq_ok_iff_decodePair (w : Byte) (i : Instr) : decode w = .ok i ↔ decodePair w = .ok (i.op, i.sel) := by
  unfold decode
  cases decodePair w with
  | error why => simp
  | ok pair => simp [ofPair_eq_iff, Prod.ext_iff]

theorem encodedFields : ∀ i : Instr, Laws.EncodedFields.Statement i
  | .addAB => Laws.EncodedFields.addAB
  | .addAC => Laws.EncodedFields.addAC
  | .addAD => Laws.EncodedFields.addAD
  | .addAE => Laws.EncodedFields.addAE
  | .addAH => Laws.EncodedFields.addAH
  | .addAL => Laws.EncodedFields.addAL
  | .addAA => Laws.EncodedFields.addAA
  | .subB => Laws.EncodedFields.subB
  | .subC => Laws.EncodedFields.subC
  | .subD => Laws.EncodedFields.subD
  | .subE => Laws.EncodedFields.subE
  | .subH => Laws.EncodedFields.subH
  | .subL => Laws.EncodedFields.subL
  | .subA => Laws.EncodedFields.subA

/-- A word decodes to an instruction exactly when it is that instruction's encoding. -/
theorem decode_eq_ok_iff (w : Byte) (i : Instr) : decode w = .ok i ↔ w = encode i := by
  rw [decode_eq_ok_iff_decodePair, decodePair_eq_ok_iff]
  obtain ⟨hgrp, hopc, hrsel, -⟩ := encodedFields i
  rw [operation_eq_some_iff] at hopc
  rw [selector_eq_some_iff] at hrsel
  constructor
  · rintro ⟨hg, ho, hr⟩
    exact eq_of_fields_eq (hg.trans hgrp.symm) (ho.trans hopc.symm) (hr.trans hrsel.symm)
  · rintro rfl
    exact ⟨hgrp, hopc, hrsel⟩

/-- Settles O12: the word's three fields, read as numbers, against the codes of R49 to R51. -/
theorem decodesByItsThreeFields : Obligations.DecodesByItsThreeFields := by
  unfold Obligations.DecodesByItsThreeFields
  intro w op r
  simp only [decodePair_eq_ok_iff, ← BitVec.toNat_inj, grpField_toNat, opcField_toNat, rselField_toNat]
  refine and_congr Iff.rfl (and_congr ?opc ?rsel)
  case opc => cases op <;> rfl
  case rsel => cases r <;> rfl

/-! ## Which words are implemented (R53) -/

theorem implemented_iff_decodePair (p : Params) (w : Byte) :
    implemented p w = true ↔ ∃ op r, decodePair w = .ok (op, r) ∧ wired p op r = true := by
  unfold implemented decode
  cases decodePair w with
  | error why => simp
  | ok pair => simp [ofPair_op, ofPair_sel, Prod.ext_iff]

/-- By default the one wired pair is that of `ADD A,C` (R7). -/
theorem wired_default_iff (op : AluOp) (r : Reg8) : wired Params.default op r = true ↔ op = .add ∧ r = .c := by
  cases op <;> cases r <;> decide

theorem implemented_default_iff (w : Byte) : implemented Params.default w = true ↔ w = 0x81#8 :=
  calc implemented Params.default w = true
      ↔ decodePair w = .ok (.add, .c) := by simp [implemented_iff_decodePair, wired_default_iff]
    _ ↔ decode w = .ok .addAC := (decode_eq_ok_iff_decodePair w .addAC).symm
    _ ↔ w = 0x81#8 := decode_eq_ok_iff w .addAC

/-- Settles O11: a word of the map is the encoding of its row, and a word that decodes is one of the 14 encodings. -/
theorem opcodeMapWords : Obligations.OpcodeMapWords := by
  unfold Obligations.OpcodeMapWords
  refine ⟨?rows, ?others, implemented_default_iff⟩
  case rows =>
    simp only [decode_eq_ok_iff]
    decide
  case others =>
    intro w hw
    cases h : decode w with
    | error why => exact ⟨why, rfl⟩
    | ok i =>
      obtain rfl := (decode_eq_ok_iff w i).1 h
      refine absurd ?_ hw
      cases i <;> decide

/-- Settles O15: the two operations of the pair that the word decodes to, each with its own parameter. -/
theorem implementedIsWiredSelector : Obligations.ImplementedIsWiredSelector := by
  unfold Obligations.ImplementedIsWiredSelector
  refine ⟨fun p w => ?_, implemented_default_iff⟩
  rw [implemented_iff_decodePair]
  constructor
  · rintro ⟨op, r, hpair, hwired⟩
    cases op
    case add => exact .inl ⟨r, hpair, hwired⟩
    case sub => exact .inr ⟨r, hpair, hwired⟩
  · rintro (⟨r, hpair, hwired⟩ | ⟨r, hpair, hwired⟩)
    · exact ⟨.add, r, hpair, hwired⟩
    · exact ⟨.sub, r, hpair, hwired⟩

end Sys2Proof.Machine
end

section
/-! PROOFS. The two byte conversions of the flags_register, bit by bit, and the two laws of their compositions
(spec/40_flags_register.md R61 to R64). -/

namespace Sys2Proof.Machine

open Sys2Proof.Claims

/-! ## `to_byte` (R61) -/

/-- The layout of the byte, from bit 0 to bit 7. -/
theorem toByte_getElem (f : Flags) (i : Nat) (hi : i < 8) :
    f.toByte[i] = [false, false, false, false, f.cy, f.h, f.n, f.z][i] := by
  obtain ⟨z, n, h, cy⟩ := f
  revert z n h cy i
  decide

theorem append_zero_toNat (x : BitVec 4) : (x ++ 0#4).toNat = 16 * x.toNat := by
  rw [BitVec.toNat_append]
  simp [Nat.shiftLeft_eq, Nat.mul_comm]

/-- The low nibble of `to_byte` is the zero that is appended last: the other four bits alone give its value. -/
theorem exists_toByte_toNat_eq (f : Flags) : ∃ k < 16, f.toByte.toNat = 16 * k :=
  ⟨_, BitVec.isLt _, append_zero_toNat _⟩

/-- Settles O1: each bit is read off the layout, and the value is 16 times the high nibble. -/
theorem flagsPackIntoHighNibble : Obligations.FlagsPackIntoHighNibble := by
  unfold Obligations.FlagsPackIntoHighNibble
  refine ⟨fun f => ?bits, rfl⟩
  have hbit := toByte_getElem f
  exact ⟨hbit 7 _, hbit 6 _, hbit 5 _, hbit 4 _, hbit 3 _, hbit 2 _, hbit 1 _, hbit 0 _, exists_toByte_toNat_eq f⟩

/-! ## `from_byte` (R62) -/

/-- The flags are a function of the byte's high nibble. -/
theorem fromByte_eq_testBit (v : Byte) : Flags.fromByte v =
    { z := (v.toNat / 16).testBit 3, n := (v.toNat / 16).testBit 2, h := (v.toNat / 16).testBit 1,
      cy := (v.toNat / 16).testBit 0 } := by
  have hbit (i : Nat) : (v.toNat / 16).testBit i = v.getLsbD (i + 4) := Nat.testBit_div_two_pow (n := 4) v.toNat i
  simp only [hbit]
  rfl

/-- Settles O2: the flags are bits 7 to 4, so bytes with one high nibble give one flag value. -/
theorem flagsUnpackFromHighNibble : Obligations.FlagsUnpackFromHighNibble := by
  unfold Obligations.FlagsUnpackFromHighNibble
  refine ⟨fromByte_eq_flagsOf, ?highNibble, ?examples⟩
  case highNibble =>
    intro v u hvu
    rw [fromByte_eq_testBit, fromByte_eq_testBit, hvu]
  case examples => decide

/-! ## The two compositions (R63, R64) -/

@[simp] theorem fromByte_toByte (f : Flags) : Flags.fromByte f.toByte = f := by
  simp [fromByte_eq_flagsOf, flagsOf, toByte_getElem]

/-- Settles O3: each of the four bits that `from_byte` reads is the flag that `to_byte` put there. -/
theorem flagsSurviveTheByte : Obligations.FlagsSurviveTheByte := fromByte_toByte

/-- Bit by bit: the layout has 0 where the mask has 0, and the bit that `from_byte` read where the mask has 1. -/
theorem toByte_fromByte (v : Byte) : (Flags.fromByte v).toByte = v &&& 0xF0#8 := by
  refine BitVec.eq_of_getElem_eq fun i hi => ?_
  rw [toByte_getElem, BitVec.getElem_and]
  interval_cases i <;> simp [Flags.fromByte]

/-- Settles O4: bits 7 to 4 come back as they were, and bits 3..0 are 0. -/
theorem byteLosesLowNibbleInFlags : Obligations.ByteLosesLowNibbleInFlags := toByte_fromByte

end Sys2Proof.Machine
end

section
/-! PROOFS. The register file: the paired views as numbers (spec/41_register_file.md R68 to R71), the twelve host
writes (R72 to R83), and what is read back after them (R85, R86). -/

namespace Sys2Proof.Machine

open Sys2Proof.Claims

/-! ## The paired views (R68 to R71) -/

theorem append_toNat (hi lo : Byte) : (hi ++ lo).toNat = 256 * hi.toNat + lo.toNat := by
  rw [BitVec.toNat_append, ← Nat.shiftLeft_add_eq_or_of_lt lo.isLt, Nat.shiftLeft_eq, Nat.mul_comm]

/-- Settles O5: a view is two bytes side by side, and the low one of AF is a multiple of 16. -/
theorem pairViewsConcatenate : Obligations.PairViewsConcatenate := by
  unfold Obligations.PairViewsConcatenate
  intro s
  have haf : s.af.toNat = 256 * s.a.toNat + s.f.toByte.toNat := append_toNat ..
  refine ⟨haf, ?lowNibble, append_toNat .., append_toNat .., append_toNat ..⟩
  case lowNibble =>
    obtain ⟨k, -, hk⟩ := exists_toByte_toNat_eq s.f
    omega

/-! ## The two bytes of `wr_data` (R37) -/

/-- `wr_data[15:8]` in natural-number arithmetic. -/
theorem highByte_eq_ofNat_div (v : Word) : highByte v = BitVec.ofNat 8 (v.toNat / 256) :=
  BitVec.eq_of_toNat_eq (by simp [highByte, Nat.shiftRight_eq_div_pow])

theorem highByte_append_lowByte (v : Word) : highByte v ++ lowByte v = v := by
  apply BitVec.eq_of_toNat_eq
  rw [append_toNat, highByte_eq_ofNat_div, lowByte_eq_ofNat_mod]
  simp only [BitVec.toNat_ofNat]
  omega

/-! ## A host write edge (R66) -/

theorem hostWrite_of_writeRule {s u : State} {sel : BitVec 4} {v : Word} (hseen : s.resetSeen = true)
    (hrule : writeRule sel v s = some u) : hostWrite sel v s = .next (u.setReport .done) := by
  rw [hostWrite, afterReset_seen hseen, hrule]

/-- The write rule that `wr_sel` names is all that the edge does, apart from the report. -/
theorem step_of_writeRule {s u : State} {sel : BitVec 4} (h : WritesTo s sel)
    (hrule : writeRule sel s.edge.wrData s.advance = some u) : step s = .next (u.setReport .done) := by
  obtain ⟨hseen, hrst, hexec, hwr, rfl⟩ := h
  exact (step_write hrst hexec hwr).trans (hostWrite_of_writeRule hseen hrule)

/-- A row of R72 to R83 holds where the write rule of its select code has the row's effect. Only the place of the
report differs: the edge sets it last, the row first. -/
theorem writeRow_of_writeRule {sel : BitVec 4} {effect : Word → State → State}
    (hrule : ∀ v s, writeRule sel v s = some (effect v s))
    (hreport : ∀ v s, (effect v s).setReport .done = effect v (s.setReport .done)) : WriteRow sel effect := by
  intro s h
  rw [step_of_writeRule h (hrule ..), hreport]
  rfl

/-- Settles O32: the row of each select code is its write rule, with `wr_data[7:0]` as a number. -/
theorem byteWriteRules : Obligations.ByteWriteRules := by
  unfold Obligations.ByteWriteRules
  simp only [← lowByte_eq_ofNat_mod, ← fromByte_eq_flagsOf]
  refine ⟨?a, ?f, ?b, ?c, ?d, ?e, ?h, ?l⟩ <;>
    exact writeRow_of_writeRule (fun _ _ => rfl) fun _ _ => rfl

/-- Settles O33: the row of each select code is its write rule, with the two bytes of `wr_data` as numbers. -/
theorem pairWriteRules : Obligations.PairWriteRules := by
  unfold Obligations.PairWriteRules
  simp only [← highByte_eq_ofNat_div, ← lowByte_eq_ofNat_mod, ← fromByte_eq_flagsOf]
  refine ⟨?af, ?bc, ?de, ?hl⟩ <;>
    exact writeRow_of_writeRule (fun _ _ => rfl) fun _ _ => rfl

/-! ## Reading back what was written (R85, R86) -/

theorem writeBC_bc (v : Word) (s : State) : (writeBC v s).bc = v := highByte_append_lowByte v

theorem writeDE_de (v : Word) (s : State) : (writeDE v s).de = v := highByte_append_lowByte v

theorem writeHL_hl (v : Word) (s : State) : (writeHL v s).hl = v := highByte_append_lowByte v

/-- The mask of `to_byte` on the low byte is the mask 0xFFF0 on the whole word. -/
theorem writeAF_af (v : Word) (s : State) : (writeAF v s).af = v &&& 0xFFF0#16 :=
  calc (writeAF v s).af
      = highByte v ++ (Flags.fromByte (lowByte v)).toByte := rfl
    _ = (highByte v &&& 0xFF#8) ++ (lowByte v &&& 0xF0#8) := by
        rw [toByte_fromByte, show (0xFF#8 : Byte) = BitVec.allOnes 8 from rfl, BitVec.and_allOnes]
    _ = (highByte v ++ lowByte v) &&& (0xFF#8 ++ 0xF0#8) := BitVec.and_append.symm
    _ = v &&& 0xFFF0#16 := by rw [highByte_append_lowByte]; rfl

/-- After a host write the four pair outputs show the views of what the write rule made. -/
theorem pairOutputs_of_writeRule {s u : State} {sel : BitVec 4} (h : WritesTo s sel)
    (hrule : writeRule sel s.edge.wrData s.advance = some u) :
    ∃ t o, step s = .next t ∧ t.outputs = .ok o ∧
      o.afQ = u.af ∧ o.bcQ = u.bc ∧ o.deQ = u.de ∧ o.hlQ = u.hl := by
  have hstep := step_of_writeRule h hrule
  obtain ⟨hseen, -⟩ := h
  obtain ⟨-, hkeeps, -⟩ := writeRule_keeps hrule
  obtain ⟨o, hout, -, -, hviews, -⟩ := outputsShowTheState (u.setReport .done) (hkeeps.trans hseen)
  exact ⟨_, o, hstep, hout, hviews⟩

/-- Settles O34: the output of the pair is its view, and its two bytes side by side are `wr_data` again. -/
theorem pairWriteReadsBack : Obligations.PairWriteReadsBack := by
  unfold Obligations.PairWriteReadsBack
  refine fun s => ⟨?bc, ?de, ?hl⟩
  case bc =>
    intro h
    obtain ⟨t, o, hstep, hout, -, hbc, -, -⟩ := pairOutputs_of_writeRule h rfl
    exact ⟨t, o, hstep, hout, hbc.trans (writeBC_bc ..)⟩
  case de =>
    intro h
    obtain ⟨t, o, hstep, hout, -, -, hde, -⟩ := pairOutputs_of_writeRule h rfl
    exact ⟨t, o, hstep, hout, hde.trans (writeDE_de ..)⟩
  case hl =>
    intro h
    obtain ⟨t, o, hstep, hout, -, -, -, hhl⟩ := pairOutputs_of_writeRule h rfl
    exact ⟨t, o, hstep, hout, hhl.trans (writeHL_hl ..)⟩

/-- Settles O35: the low byte of AF comes back through the two byte conversions, which keep its high nibble. -/
theorem afWriteLosesLowNibble : Obligations.AfWriteLosesLowNibble := by
  unfold Obligations.AfWriteLosesLowNibble
  intro s h
  obtain ⟨t, o, hstep, hout, haf, -⟩ := pairOutputs_of_writeRule h rfl
  exact ⟨t, o, hstep, hout, haf.trans (writeAF_af ..)⟩

end Sys2Proof.Machine
end

section
/-! PROOFS. The alu_result_path in natural-number arithmetic: what the adder and its two carries are as numbers
(spec/42_alu_result_path.md R90). -/

namespace Sys2Proof.Machine

/-! ## A sum that keeps its carry -/

theorem toNat_zeroExtend_add {n : Nat} (x y : BitVec n) :
    (x.zeroExtend (n + 1) + y.zeroExtend (n + 1)).toNat = x.toNat + y.toNat := by
  have hlt : x.toNat + y.toNat < 2 ^ (n + 1) := by omega
  have hx : (x.zeroExtend (n + 1)).toNat = x.toNat := BitVec.toNat_setWidth_of_le n.le_succ
  have hy : (y.zeroExtend (n + 1)).toNat = y.toNat := BitVec.toNat_setWidth_of_le n.le_succ
  rw [BitVec.toNat_add, hx, hy, Nat.mod_eq_of_lt hlt]

/-- The top bit of the widened sum is the carry out of the two operands: H with n = 4, CY with n = 8 (R90). -/
theorem carryOut_iff {n : Nat} (x y : BitVec n) :
    (x.zeroExtend (n + 1) + y.zeroExtend (n + 1)).getLsbD n = true ↔ 2 ^ n ≤ x.toNat + y.toNat := by
  rw [BitVec.getLsbD_succ_last, toNat_zeroExtend_add, decide_eq_true_iff]

/-! ## The adder (R90) -/

theorem lowNibble_toNat (v : Byte) : (lowNibble v).toNat = v.toNat % 16 := by simp [lowNibble]

theorem sum9_toNat (a v : Byte) : (sum9 a v).toNat = a.toNat + v.toNat := toNat_zeroExtend_add a v

theorem addResult_toNat (a v : Byte) : (addResult a v).toNat = (a.toNat + v.toNat) % 256 := by
  simp [addResult, sum9_toNat]

theorem addFlags_z_iff (a v : Byte) : (addFlags a v).z = true ↔ addResult a v = 0x00#8 := beq_iff_eq

theorem addFlags_h_iff (a v : Byte) : (addFlags a v).h = true ↔ 16 ≤ a.toNat % 16 + v.toNat % 16 := by
  rw [← lowNibble_toNat, ← lowNibble_toNat]
  exact carryOut_iff (lowNibble a) (lowNibble v)

theorem addFlags_cy_iff (a v : Byte) : (addFlags a v).cy = true ↔ 256 ≤ a.toNat + v.toNat := carryOut_iff a v

/-- Settles O7: the result is the 9-bit sum without its carry, and H and CY are the carries of the two low nibbles
and of the two bytes. -/
theorem adderResultAndFlags : Obligations.AdderResultAndFlags := by
  unfold Obligations.AdderResultAndFlags
  exact fun a v => ⟨addResult_toNat a v, addFlags_z_iff a v, rfl, addFlags_h_iff a v, addFlags_cy_iff a v⟩

end Sys2Proof.Machine
end

section
/-! PROOFS. What an instruction does on a block that has been reset, wired or not (spec/43_execute.md R97 to R104),
and what an execute edge (R94, R112) and an idle edge (R95) do. -/

namespace Sys2Proof.Machine

open Sys2Proof.Claims

/-! ## The commit of an addition, in natural-number arithmetic (R90, R97) -/

theorem addResult_eq_ofNat_mod (a v : Byte) : addResult a v = BitVec.ofNat 8 ((a.toNat + v.toNat) % 256) :=
  BitVec.eq_of_toNat_eq (by simp [addResult_toNat])

theorem addFlags_z_iff_mod (a v : Byte) : (addFlags a v).z = true ↔ (a.toNat + v.toNat) % 256 = 0 := by
  rw [addFlags_z_iff, ← BitVec.toNat_inj, addResult_toNat]
  rfl

/-- A flag that is on exactly where a comparison holds is that comparison. -/
theorem eq_decide_of_iff {b : Bool} {P : Prop} [Decidable P] (h : b = true ↔ P) : b = decide P :=
  Bool.eq_iff_iff.2 (h.trans decide_eq_true_iff.symm)

theorem addFlags_eq_decide (a v : Byte) : addFlags a v =
    { z := decide ((a.toNat + v.toNat) % 256 = 0)
      n := false
      h := decide (0xF < a.toNat % 16 + v.toNat % 16)
      cy := decide (255 < a.toNat + v.toNat) } :=
  (Flags.mk.injEq ..).mpr ⟨eq_decide_of_iff (addFlags_z_iff_mod a v), rfl, eq_decide_of_iff (addFlags_h_iff a v),
    eq_decide_of_iff (addFlags_cy_iff a v)⟩

theorem commit_add_eq_added (s : State) (v : Byte) : s.commit (alu .add s.a v) = added s v := by
  rw [commit_eq, added, ← addResult_eq_ofNat_mod, ← addFlags_eq_decide]
  rfl

/-! ## An instruction on a block that has been reset -/

section

variable {i : Instr} {s : State} (hs : s.resetSeen = true)
include hs

theorem exec_of_wired (hw : wired s.params i.op i.sel = true) :
    exec i s = .next (s.commit (alu i.op s.a (s.reg i.sel))) := by
  rw [exec_eq_executePair, executePair_seen _ _ hs, if_pos hw]

theorem exec_of_not_wired (hw : wired s.params i.op i.sel = false) : exec i s = .next (notImplemented s) := by
  rw [exec_eq_executePair, executePair_seen _ _ hs, if_neg (Bool.eq_false_iff.1 hw)]
  rfl

end

/-- The row of an ADD, whatever its selector: the word is its encoding, and wiring and operand are read at the
selector. -/
theorem addRow_of_op {i : Instr} (hop : i.op = .add) :
    AddRow i (encode i) (inSet Params.default.wiredAdd i.sel) (inSet · i.sel) (·.reg i.sel) := by
  have hwired (p : Params) : wired p i.op i.sel = inSet p.wiredAdd i.sel := by rw [hop]; rfl
  refine ⟨(decode_eq_ok_iff _ i).2 rfl, rfl, fun s hs => ⟨?whereWired, ?whereNot⟩⟩
  case whereWired =>
    intro hsel
    rw [exec_of_wired hs ((hwired _).trans hsel), hop, commit_add_eq_added]
  case whereNot =>
    intro hsel
    exact exec_of_not_wired hs ((hwired _).trans hsel)

/-- Settles O16: each row is the general one at its own selector. -/
theorem addRowsExecute : Obligations.AddRowsExecute := by
  unfold Obligations.AddRowsExecute
  refine ⟨?b, ?c, ?d, ?e, ?h, ?l, ?a⟩ <;> exact addRow_of_op rfl

/-- Settles O18: an instruction that answers a next state is a commit where it is wired, and a report where it is
not; the frame is that of these two updates. -/
theorem instructionFrame : Obligations.InstructionFrame := by
  unfold Obligations.InstructionFrame
  intro i s t h
  rw [exec_eq_executePair] at h
  obtain ⟨-, ⟨hw, rfl⟩ | ⟨hw, rfl⟩⟩ := executePair_next h <;> simp [hw]

/-! ## An execute edge (R94, R112) -/

theorem decode_of_decodePair {w : Byte} {op : AluOp} {r : Reg8} (h : decodePair w = .ok (op, r)) :
    decode w = .ok (Instr.ofPair op r) := by
  rw [decode_eq_ok_iff_decodePair, ofPair_op, ofPair_sel, h]

theorem executeWord_of_decode {w : Byte} {i : Instr} (s : State) (h : decode w = .ok i) :
    executeWord w s = exec i s := by
  rw [executeWord, h]

section

variable {s : State} (hs : s.resetSeen = true) (hx : Executes s)
include hs hx

theorem step_implemented {op : AluOp} {r : Reg8} (himpl : implemented s.params s.edge.insn = true)
    (hpair : decodePair s.edge.insn = .ok (op, r)) :
    step s = .next (s.advance.commit (alu op s.a (s.reg r))) := by
  obtain ⟨hrst, hexec, hwr⟩ := hx
  have hdec := decode_of_decodePair hpair
  rw [implemented_of_decode _ hdec] at himpl
  rw [step_execute hrst hexec hwr, executeWord_of_decode _ hdec, exec_of_wired (s := s.advance) hs himpl, ofPair_op,
    ofPair_sel, advance_a, reg_advance]

theorem step_not_implemented (himpl : implemented s.params s.edge.insn = false) :
    step s = .next (s.advance.setReport .unimplemented) := by
  obtain ⟨hrst, hexec, hwr⟩ := hx
  rw [step_execute hrst hexec hwr, executeWord_implemented (s := s.advance) himpl]
  exact afterReset_seen hs

end

/-- Settles O21: the two cases of `implemented`, each with its whole next state. -/
theorem executeStepCommits : Obligations.ExecuteStepCommits := by
  unfold Obligations.ExecuteStepCommits
  exact fun s hs hx => ⟨fun _ _ => step_implemented hs hx, step_not_implemented hs hx⟩

/-- Settles O22: the edge is one of those that R31's formula for `unimpl` names, and all that it writes is the
report. -/
theorem unimplementedChangesNothing : Obligations.UnimplementedChangesNothing := by
  unfold Obligations.UnimplementedChangesNothing
  intro s hs hx himpl
  have hstep := step_not_implemented hs hx himpl
  obtain ⟨hrst, hexec, hwr⟩ := hx
  exact ⟨(unimpl_iff s).2 ⟨hexec, hrst, hwr, himpl⟩, _, hstep, rfl, Report.noConfusion, rfl, rfl⟩

/-! ## An idle edge (R95) -/

/-- Settles O26: `unimpl` needs `exec_valid`, and the edge writes the report alone. -/
theorem idleEdgeChangesNothing : Obligations.IdleEdgeChangesNothing := by
  unfold Obligations.IdleEdgeChangesNothing
  intro s hs hrst hexec hwr
  refine ⟨?unimpl, ?next⟩
  case unimpl => simp [State.unimpl, hexec]
  case next =>
    rw [step_idle hrst hexec hwr]
    exact afterReset_seen hs

end Sys2Proof.Machine
end

section
/-! PROOFS. The order in which one edge resolves its inputs (spec/60_exceptions.md R119). -/

namespace Sys2Proof.Machine

open Sys2Proof.Claims

/-- A reset edge leaves the reset state with the block's own parameters and the rest of the host's list (R128). -/
theorem step_reset_resetTo {s : State} (hrst : s.edge.rst = true) : step s = .next (resetTo s.params s.inputs.tail) :=
  step_reset hrst

/-- Settles O27: with the host's list read as its head and its tail, each clause is the lemma of its kind of edge. -/
theorem edgePriorityOrder : Obligations.EdgePriorityOrder := by
  unfold Obligations.EdgePriorityOrder
  intro s e rest hin
  obtain rfl : s.edge = e := edge_of_inputs _ _ rest hin
  obtain rfl : s.inputs.tail = rest := by rw [hin, List.tail_cons]
  refine ⟨step_reset_resetTo, ?collision, step_execute, step_write, ?idle⟩
  case collision =>
    intro hrst hexec hwr
    have hcollision := step_collision hrst hexec hwr
    exact ⟨⟨_, hcollision⟩, fun _ => hcollision⟩
  case idle =>
    intro hrst hexec hwr hs
    exact (idleEdgeChangesNothing s hs hrst hexec hwr).2

end Sys2Proof.Machine
end

section
/-! PROOFS. Reset edges, once and held (spec/70_reset_and_hazards.md R128), and which edges a step refuses for
which reason (R132, with R84 and R131). -/

namespace Sys2Proof.Machine

open Sys2Proof.Claims

/-! ## Reset edges (R128) -/

theorem run_succ_of_step {s t : State} (h : step s = .next t) (k : Nat) : run (k + 1) s = run k t := by
  rw [run_succ, h]

theorem unimpl_of_reset {s : State} (hrst : s.edge.rst = true) : s.unimpl = false := by
  simp [State.unimpl, hrst]

/-- On a block that has just been reset, further reset edges change nothing but the host's list. -/
theorem run_resetTo_of_held (p : Params) (rest held : List Edge) (hheld : ∀ e ∈ held, e.rst = true) :
    run held.length (resetTo p (held ++ rest)) = .next (resetTo p rest) := by
  induction held with
  | nil => rfl
  | cons e held ih =>
    obtain ⟨hrst, hheld⟩ := List.forall_mem_cons.1 hheld
    have hstep : step (resetTo p (e :: held ++ rest)) = .next (resetTo p (held ++ rest)) := step_reset_resetTo hrst
    rw [List.length_cons, run_succ_of_step hstep]
    exact ih hheld

/-- Settles O24: the first reset edge gives the reset values, and the edges after it are held on that state. -/
theorem resetEdgeClearsEverything : Obligations.ResetEdgeClearsEverything := by
  unfold Obligations.ResetEdgeClearsEverything
  refine ⟨fun s hrst => ⟨unimpl_of_reset hrst, step_reset_resetTo hrst⟩, ?held⟩
  case held =>
    intro k held rest s hlen hheld hin
    obtain _ | ⟨e, held⟩ := held
    case nil => cases hlen
    case cons =>
      obtain rfl : held.length = k := Nat.succ.inj hlen
      obtain ⟨hrst, hheld⟩ := List.forall_mem_cons.1 hheld
      rw [← edge_of_inputs s e _ hin] at hrst
      have hstep := step_reset_resetTo hrst
      rw [hin, List.cons_append, List.tail_cons] at hstep
      rw [run_succ_of_step hstep]
      exact run_resetTo_of_held s.params rest held hheld

/-! ## What a refusal says of the edge (R84, R131, R132) -/

theorem afterReset_refused {s : State} {act : State → StepOutcome} {r : Refusal}
    (h : afterReset s act = .refused r) :
    (s.resetSeen = false ∧ r = .notYetReset) ∨ (s.resetSeen = true ∧ act s = .refused r) := by
  cases hs : s.resetSeen
  · rw [afterReset_unseen hs] at h
    exact .inl ⟨rfl, (Host.Outcome.refused.inj h).symm⟩
  · exact .inr ⟨rfl, (afterReset_seen hs).symm.trans h⟩

/-- An operation that refuses nothing itself is refused only for want of a reset (R131). -/
theorem notYetReset_of_refused {s : State} {act : State → StepOutcome} {r : Refusal}
    (h : afterReset s act = .refused r) (hact : act s ≠ .refused r) : s.resetSeen = false ∧ r = .notYetReset :=
  (afterReset_refused h).resolve_right fun ⟨_, hrefused⟩ => hact hrefused

theorem idleStep_refused {s : State} {r : Refusal} (h : idleStep s = .refused r) :
    s.resetSeen = false ∧ r = .notYetReset := notYetReset_of_refused h nofun

theorem unimplementedStep_refused {s : State} {r : Refusal} (h : unimplementedStep s = .refused r) :
    s.resetSeen = false ∧ r = .notYetReset := notYetReset_of_refused h nofun

theorem exec_refused {i : Instr} {s : State} {r : Refusal} (h : exec i s = .refused r) :
    s.resetSeen = false ∧ r = .notYetReset := by
  rw [exec_eq_executePair] at h
  refine notYetReset_of_refused h ?_
  split <;> exact nofun

theorem executeWord_refused {w : Byte} {s : State} {r : Refusal} (h : executeWord w s = .refused r) :
    s.resetSeen = false ∧ r = .notYetReset := by
  unfold executeWord at h
  split at h
  · exact exec_refused h
  · exact unimplementedStep_refused h

theorem hostWrite_refused {sel : BitVec 4} {v : Word} {s : State} {r : Refusal} (h : hostWrite sel v s = .refused r) :
    (s.resetSeen = false ∧ r = .notYetReset) ∨
      (s.resetSeen = true ∧ 0xB < sel.toNat ∧ r = .reservedWriteSelect sel) := by
  obtain hunseen | ⟨hs, h⟩ := afterReset_refused h
  · exact .inl hunseen
  · split at h
    case h_1 => cases h
    case h_2 hnone =>
      cases h
      exact .inr ⟨hs, (writeRule_none_iff ..).1 hnone, rfl⟩

/-- Everything that a refused step can mean: a collision, a block that was never reset, or a host write to a
reserved select. -/
theorem step_refused_cases {s : State} {r : Refusal} (h : step s = .refused r) :
    s.edge.rst = false ∧
      ((s.edge.execValid = true ∧ s.edge.wrEn = true ∧ r = .edgeCollision) ∨
       (s.resetSeen = false ∧ r = .notYetReset) ∨
       (s.resetSeen = true ∧ s.edge.execValid = false ∧ s.edge.wrEn = true ∧ 0xB < s.edge.wrSel.toNat ∧
          r = .reservedWriteSelect s.edge.wrSel)) := by
  cases hrst : s.edge.rst
  case true =>
    rw [step_reset hrst] at h
    cases h
  case false =>
    refine ⟨rfl, ?_⟩
    cases hexec : s.edge.execValid <;> cases hwr : s.edge.wrEn
    case true.true =>
      rw [step_collision hrst hexec hwr] at h
      cases h
      exact .inl ⟨rfl, rfl, rfl⟩
    case true.false =>
      rw [step_execute hrst hexec hwr] at h
      exact .inr (.inl (executeWord_refused (s := s.advance) h))
    case false.true =>
      rw [step_write hrst hexec hwr] at h
      obtain hunseen | ⟨hs, hsel, hr⟩ := hostWrite_refused h
      · exact .inr (.inl hunseen)
      · exact .inr (.inr ⟨hs, rfl, rfl, hsel, hr⟩)
    case false.false =>
      rw [step_idle hrst hexec hwr] at h
      exact .inr (.inl (idleStep_refused (s := s.advance) h))

theorem step_edgeCollision_iff (s : State) :
    step s = .refused .edgeCollision ↔ s.edge.rst = false ∧ s.edge.execValid = true ∧ s.edge.wrEn = true := by
  constructor
  · intro h
    obtain ⟨hrst, ⟨hexec, hwr, -⟩ | ⟨-, hr⟩ | ⟨-, -, -, -, hr⟩⟩ := step_refused_cases h
    · exact ⟨hrst, hexec, hwr⟩
    · cases hr
    · cases hr
  · rintro ⟨hrst, hexec, hwr⟩
    exact step_collision hrst hexec hwr

/-- Settles O28: `edgeCollision` names one kind of edge alone, whether or not the block has been reset. -/
theorem collisionRefusedExactly : Obligations.CollisionRefusedExactly := by
  unfold Obligations.CollisionRefusedExactly
  exact ⟨fun _ hrst hexec hwr => ⟨_, step_collision hrst hexec hwr⟩, fun s _ => step_edgeCollision_iff s⟩

end Sys2Proof.Machine
end

section
/-! PROOFS. The alu_result_path: the laws of the adder (spec/42_alu_result_path.md R90, R91), the subtractor in
natural-number arithmetic (R92), and how the two undo each other (R93). -/

namespace Sys2Proof.Machine

/-! ## Laws of the adder (R90, R91) -/

theorem aluAdd_comm (a v : Byte) : aluAdd a v = aluAdd v a := by
  simp only [aluAdd, addResult, addFlags, sum9, BitVec.add_comm]

/-- The carry out of a value doubled is its top bit. -/
theorem carryOut_double {n : Nat} (x : BitVec (n + 1)) :
    (x.zeroExtend (n + 1 + 1) + x.zeroExtend (n + 1 + 1)).getLsbD (n + 1) = x.msb := by
  rw [Bool.eq_iff_iff, carryOut_iff, BitVec.msb_eq_decide, decide_eq_true_iff, Nat.add_sub_cancel, Nat.pow_succ]
  omega

theorem addFlags_h_self (a : Byte) : (addFlags a a).h = a[3] := by
  refine (carryOut_double (lowNibble a)).trans ?_
  simp [lowNibble, BitVec.msb_eq_getLsbD_last]

theorem addFlags_cy_self (a : Byte) : (addFlags a a).cy = a[7] := (carryOut_double a).trans rfl

/-- Settles O8: Z is a sum of 0 modulo 256, of which there are two below 512; H and CY of a doubling are top bits. -/
theorem adderLaws : Obligations.AdderLaws := by
  unfold Obligations.AdderLaws
  refine fun a v => ⟨aluAdd_comm a v, ?z, addFlags_h_self a, addFlags_cy_self a⟩
  case z =>
    refine (addFlags_z_iff_mod a v).trans ?_
    have ha := a.isLt
    have hv := v.isLt
    omega

/-! ## The subtractor (R92, R93) -/

theorem subResult_toNat (a v : Byte) : (subResult a v).toNat = (a.toNat + 256 - v.toNat) % 256 := by
  rw [subResult, BitVec.toNat_sub]
  have hv := v.isLt
  omega

theorem subFlags_z_iff (a v : Byte) : (subFlags a v).z = true ↔ subResult a v = 0x00#8 := beq_iff_eq

theorem subFlags_z_iff_eq (a v : Byte) : (subFlags a v).z = true ↔ a = v :=
  (subFlags_z_iff a v).trans sub_eq_zero

theorem subFlags_h_iff (a v : Byte) : (subFlags a v).h = true ↔ a.toNat % 16 < v.toNat % 16 := by
  rw [← lowNibble_toNat, ← lowNibble_toNat]
  exact BitVec.ult_iff_lt

theorem subFlags_cy_iff (a v : Byte) : (subFlags a v).cy = true ↔ a.toNat < v.toNat := BitVec.ult_iff_lt

/-- Settles O9: the difference modulo 256, and H and CY are the borrows of the two low nibbles and of the two bytes. -/
theorem subtractorResultAndFlags : Obligations.SubtractorResultAndFlags := by
  unfold Obligations.SubtractorResultAndFlags
  exact fun a v => ⟨subResult_toNat a v, subFlags_z_iff a v, rfl, subFlags_h_iff a v, subFlags_cy_iff a v⟩

/-! ## The adder undoes the subtractor (R93) -/

theorem addResult_subResult (a v : Byte) : addResult (subResult a v) v = a := by
  apply BitVec.eq_of_toNat_eq
  rw [addResult_toNat, subResult_toNat]
  omega

/-- The adder carries out of bit 7 exactly where the subtractor borrowed there. -/
theorem addFlags_subResult_cy (a v : Byte) : (addFlags (subResult a v) v).cy = (subFlags a v).cy := by
  rw [Bool.eq_iff_iff, addFlags_cy_iff, subFlags_cy_iff, subResult_toNat]
  omega

/-- The adder carries out of bit 3 exactly where the subtractor borrowed there. -/
theorem addFlags_subResult_h (a v : Byte) : (addFlags (subResult a v) v).h = (subFlags a v).h := by
  rw [Bool.eq_iff_iff, addFlags_h_iff, subFlags_h_iff, subResult_toNat]
  omega

/-- Settles O10: each carry of the addition is the borrow that it gives back. -/
theorem subtractorLaws : Obligations.SubtractorLaws := by
  unfold Obligations.SubtractorLaws
  exact fun a v => ⟨subFlags_cy_iff a v, subFlags_z_iff_eq a v, rfl, addResult_subResult a v,
    addFlags_subResult_cy a v, addFlags_subResult_h a v⟩

end Sys2Proof.Machine
end

section
/-! PROOFS. Decoding against encoding (spec/30_encoding.md R48 to R52), and the two levels of the dispatch
(spec/43_execute.md R96). -/

namespace Sys2Proof.Machine

/-! ## Decoding and encoding -/

/-- Settles O13: the two directions of the lemma that a word decodes to `i` exactly where it is the encoding of
`i`. -/
theorem decodeInvertsEncode : Obligations.DecodeInvertsEncode := by
  unfold Obligations.DecodeInvertsEncode
  exact ⟨fun i => (decode_eq_ok_iff _ i).2 rfl, fun w i h => ((decode_eq_ok_iff w i).1 h).symm⟩

/-! ## The dispatch levels (R96) -/

/-- What a word decodes to is read off its two fields, one for the operation and one for the selector. -/
theorem fields_of_decode {w : Byte} {i : Instr} (h : decode w = .ok i) :
    operation (opcField w) = some i.op ∧ selector (rselField w) = some i.sel := by
  obtain rfl := (decode_eq_ok_iff w i).1 h
  obtain ⟨-, hopc, hrsel, -⟩ := encodedFields i
  exact ⟨hopc, hrsel⟩

theorem eq_of_op_sel_eq {i j : Instr} (hop : i.op = j.op) (hsel : i.sel = j.sel) : i = j := by
  rw [← ofPair_op_sel i, hop, hsel, ofPair_op_sel]

theorem exists_operation_iff (x : BitVec 3) : (∃ op, operation x = some op) ↔ (x == 0b000#3 || x == 0b010#3) := by
  rw [← Option.isSome_iff_exists]
  revert x
  decide

theorem exists_selector_iff (x : BitVec 3) : (∃ r, selector x = some r) ↔ x != 0b110#3 := by
  rw [← Option.isSome_iff_exists]
  revert x
  decide

/-- The check accepts a word exactly where it is an encoding. -/
theorem insnWf_iff (w : Byte) : insnWf w = true ↔ ∃ i, w = encode i := by
  constructor
  · intro h
    simp only [insnWf, Bool.and_eq_true] at h
    obtain ⟨⟨hgrp, hopc⟩, hrsel⟩ := h
    obtain ⟨op, hop⟩ := (exists_operation_iff (opcField w)).2 hopc
    obtain ⟨r, hr⟩ := (exists_selector_iff (rselField w)).2 hrsel
    rw [operation_eq_some_iff] at hop
    rw [selector_eq_some_iff] at hr
    have hpair := (decodePair_eq_ok_iff w op r).2 ⟨eq_of_beq hgrp, hop, hr⟩
    exact ⟨_, (decode_eq_ok_iff ..).1 (decode_of_decodePair hpair)⟩
  · rintro ⟨i, rfl⟩
    obtain ⟨-, -, -, hwf⟩ := encodedFields i
    exact hwf

/-- Settles O14: each field gives its half of the pair, and the pair is one row of the map. -/
theorem dispatchLevelsAreOrthogonal : Obligations.DispatchLevelsAreOrthogonal := by
  unfold Obligations.DispatchLevelsAreOrthogonal
  refine ⟨fun w u i j hi hj => ?levels, fun w => ?check⟩
  case levels =>
    obtain ⟨hopi, hseli⟩ := fields_of_decode hi
    obtain ⟨hopj, hselj⟩ := fields_of_decode hj
    refine ⟨fun h => ?_, fun h => ?_, eq_of_op_sel_eq⟩
    · rw [h, hopj] at hopi
      exact (Option.some.inj hopi).symm
    · rw [h, hselj] at hseli
      exact (Option.some.inj hseli).symm
  case check => simp only [insnWf_iff, decode_eq_ok_iff]

end Sys2Proof.Machine
end

section
/-! PROOFS. Which steps are refused and which answer a next state (spec/70_reset_and_hazards.md R131 to R133), what
every next state keeps, and what the report says (spec/10_state.md R14, R31). -/

namespace Sys2Proof.Machine

open Sys2Proof.Claims

/-! ## What every next state keeps -/

/-- A step takes one edge off the host's list, keeps the parameters, and ends on a block that has been reset. -/
theorem step_keeps {s t : State} (h : step s = .next t) :
    t.params = s.params ∧ t.inputs = s.inputs.tail ∧ t.resetSeen = true := by
  obtain ⟨-, rfl⟩ | ⟨-, hs, ⟨-, -, i, -, -, rfl⟩ | ⟨-, -, -, rfl⟩ | ⟨-, -, u, hu, rfl⟩ | ⟨-, -, rfl⟩⟩ := step_cases h
  case inl => exact ⟨rfl, rfl, rfl⟩
  case inr.inr.inr.inl =>
    obtain ⟨hparams, hseen, hinputs, -⟩ := writeRule_keeps hu
    exact ⟨hparams, hinputs, hseen.trans hs⟩
  all_goals exact ⟨rfl, rfl, hs⟩

theorem step_params {s t : State} (h : step s = .next t) : t.params = s.params := (step_keeps h).1

theorem step_resetSeen {s t : State} (h : step s = .next t) : t.resetSeen = true := (step_keeps h).2.2

/-! ## Refused or not -/

/-- A step answers a next state or is refused: there is no fault (R116). -/
theorem step_next_or_refused (s : State) : (∃ t, step s = .next t) ∨ ∃ r, step s = .refused r := by
  cases step s with
  | next t => exact .inl ⟨t, rfl⟩
  | refused r => exact .inr ⟨r, rfl⟩
  | fault r => nomatch r

theorem not_breaksContract_of_next {s t : State} (h : step s = .next t) : ¬ s.breaksContract := by
  rintro ⟨hrst, hunseen | ⟨hexec, hwr⟩ | ⟨hwr, hsel⟩⟩
  case inl =>
    obtain ⟨hr, -⟩ | ⟨-, hs, -⟩ := step_cases h
    · simp [hrst] at hr
    · simp [hunseen] at hs
  case inr.inl => simp [step_collision hrst hexec hwr] at h
  case inr.inr =>
    cases hexec : s.edge.execValid
    case true => simp [step_collision hrst hexec hwr] at h
    case false =>
      rw [step_write hrst hexec hwr] at h
      obtain ⟨-, u, hu, -⟩ := hostWrite_next h
      simp [(writeRule_none_iff _ _ _).2 hsel] at hu

theorem breaksContract_of_refused {s : State} {r : Refusal} (h : step s = .refused r) : s.breaksContract := by
  obtain ⟨hrst, ⟨hexec, hwr, -⟩ | ⟨hunseen, -⟩ | ⟨-, -, hwr, hsel, -⟩⟩ := step_refused_cases h
  · exact ⟨hrst, .inr (.inl ⟨hexec, hwr⟩)⟩
  · exact ⟨hrst, .inl hunseen⟩
  · exact ⟨hrst, .inr (.inr ⟨hwr, hsel⟩)⟩

theorem step_next_of_not_breaksContract {s : State} (h : ¬ s.breaksContract) : ∃ t, step s = .next t :=
  (step_next_or_refused s).resolve_right fun ⟨_, hr⟩ => h (breaksContract_of_refused hr)

/-- Settles O40: a refused step breaks the contract, one that answers a next state does not, and every step does
one of the two. -/
theorem onlyContractBreachesStop : Obligations.OnlyContractBreachesStop := by
  unfold Obligations.OnlyContractBreachesStop
  refine fun s => ⟨⟨?refused, fun hbreak => ?breach⟩, ⟨?next, step_next_of_not_breaksContract⟩⟩
  case refused =>
    rintro ⟨r, hr⟩
    exact breaksContract_of_refused hr
  case breach =>
    exact (step_next_or_refused s).resolve_left fun ⟨_, ht⟩ => not_breaksContract_of_next ht hbreak
  case next =>
    rintro ⟨t, ht⟩
    exact not_breaksContract_of_next ht

/-! ## Host writes to a reserved select (R84) -/

theorem hostWrite_reserved {s : State} {sel : BitVec 4} {v : Word} (hs : s.resetSeen = true) (hsel : 0xB < sel.toNat) :
    hostWrite sel v s = .refused (.reservedWriteSelect sel) := by
  rw [hostWrite, afterReset_seen hs, (writeRule_none_iff ..).2 hsel]

/-- Settles O29: of the three reasons for a refusal this one names a host write, and its select. -/
theorem reservedWriteSelectRefused : Obligations.ReservedWriteSelectRefused := by
  unfold Obligations.ReservedWriteSelectRefused
  intro s sel hs
  constructor
  · intro h
    obtain ⟨hrst, ⟨-, -, hr⟩ | ⟨-, hr⟩ | ⟨-, hexec, hwr, hsel, hr⟩⟩ := step_refused_cases h
    case inl => cases hr
    case inr.inl => cases hr
    case inr.inr =>
      cases hr
      exact ⟨⟨hrst, hexec, hwr⟩, rfl, hsel⟩
  · rintro ⟨⟨hrst, hexec, hwr⟩, rfl, hsel⟩
    exact (step_write hrst hexec hwr).trans (hostWrite_reserved (s := s.advance) hs hsel)

/-! ## Before the first reset (R34, R131) -/

section

variable {s : State} (hs : s.resetSeen = false)
include hs

theorem outputs_unseen : s.outputs = .error .notYetReset := by simp [State.outputs, hs]

theorem exec_unseen (i : Instr) : exec i s = .refused .notYetReset := by
  rw [exec_eq_executePair]
  exact afterReset_unseen hs

theorem rst_of_step_unseen {t : State} (h : step s = .next t) : s.edge.rst = true := by
  obtain ⟨hrst, -⟩ | ⟨-, hseen, -⟩ := step_cases h
  · exact hrst
  · simp [hs] at hseen

/-- Every edge but a reset or a collision is refused for want of a reset. -/
theorem step_unseen (hrst : s.edge.rst = false) (hcol : s.edge.noCollision = true) :
    step s = .refused .notYetReset := by
  obtain ⟨t, ht⟩ | ⟨r, hr⟩ := step_next_or_refused s
  · simp [rst_of_step_unseen hs ht] at hrst
  · obtain ⟨-, ⟨hexec, hwr, -⟩ | ⟨-, rfl⟩ | ⟨hseen, -⟩⟩ := step_refused_cases hr
    · simp [Edge.noCollision, hexec, hwr] at hcol
    · exact hr
    · simp [hs] at hseen

end

theorem noCollision_eq_false_iff (e : Edge) : e.noCollision = false ↔ e.execValid = true ∧ e.wrEn = true := by
  simp [Edge.noCollision]

/-- Settles O30: one lemma for each kind of use. -/
theorem nothingBeforeReset : Obligations.NothingBeforeReset := by
  unfold Obligations.NothingBeforeReset
  refine fun s hs => ⟨outputs_unseen hs, exec_unseen hs, step_unseen hs, fun hrst hcol => ?collision,
    fun _ => rst_of_step_unseen hs⟩
  case collision =>
    obtain ⟨hexec, hwr⟩ := (noCollision_eq_false_iff _).1 hcol
    exact step_collision hrst hexec hwr

/-- A step before the first reset does not depend on the registers and flags. -/
theorem step_eq_of_unseen {s u : State} (hs : s.resetSeen = false) (hu : u.resetSeen = false)
    (hparams : s.params = u.params) (hinputs : s.inputs = u.inputs) : step s = step u := by
  have hedge : u.edge = s.edge := by rw [State.edge, State.edge, hinputs]
  cases hrst : s.edge.rst
  case true =>
    rw [step_reset_resetTo hrst, step_reset_resetTo (hedge ▸ hrst), hparams, hinputs]
  case false =>
    cases hcol : s.edge.noCollision
    case true => rw [step_unseen hs hrst hcol, step_unseen hu (hedge ▸ hrst) (hedge ▸ hcol)]
    case false =>
      obtain ⟨hexec, hwr⟩ := (noCollision_eq_false_iff _).1 hcol
      rw [step_collision hrst hexec hwr, step_collision (hedge ▸ hrst) (hedge ▸ hexec) (hedge ▸ hwr)]

/-- Settles O31: the two blocks are refused or reset alike at the first edge, and after a reset they are one block. -/
theorem powerUpValuesUnobservable : Obligations.PowerUpValuesUnobservable := by
  unfold Obligations.PowerUpValuesUnobservable
  intro s u hs hu hparams hinputs
  refine ⟨by rw [outputs_unseen hs, outputs_unseen hu], fun k => ?_⟩
  rw [run_succ, run_succ, step_eq_of_unseen hs hu hparams hinputs]

/-! ## The report and `unimpl` (R31, R112) -/

theorem unimpl_of_not_exec {s : State} (hexec : s.edge.execValid = false) : s.unimpl = false := by
  simp [State.unimpl, hexec]

theorem unimpl_of_implemented {s : State} (himpl : implemented s.params s.edge.insn = true) : s.unimpl = false := by
  simp [State.unimpl, himpl]

/-- Every kind of edge but one reports `done` and shows `unimpl` = 0; the one is an execute edge whose word is not
implemented. -/
theorem step_report {s t : State} (h : step s = .next t) :
    t.report = if s.unimpl then .unimplemented else .done := by
  obtain ⟨hrst, rfl⟩ | ⟨hrst, -, ⟨-, -, i, hi, hw, rfl⟩ | ⟨hexec, hwr, himpl, rfl⟩ | ⟨hexec, -, u, -, rfl⟩ |
    ⟨hexec, -, rfl⟩⟩ := step_cases h
  case inl => simp [unimpl_of_reset hrst]
  case inr.inl => simp [unimpl_of_implemented ((implemented_of_decode _ hi).trans hw)]
  case inr.inr.inl => simp [(unimpl_iff s).2 ⟨hexec, hrst, hwr, himpl⟩]
  case inr.inr.inr.inl => simp [unimpl_of_not_exec hexec]
  case inr.inr.inr.inr => simp [unimpl_of_not_exec hexec]

/-- Settles O23: the report is a function of `unimpl`, with `unimplemented` where it is 1. -/
theorem reportFollowsUnimplOutput : Obligations.ReportFollowsUnimplOutput := by
  unfold Obligations.ReportFollowsUnimplOutput
  intro s t h
  rw [step_report h]
  cases s.unimpl <;> simp

end Sys2Proof.Machine
end

section
/-! PROOFS. Runs of a block whose host keeps the contract (spec/70_reset_and_hazards.md R133; spec/00_scope.md R7;
item I1 of spec/93_implementation_defined.md). -/

namespace Sys2Proof.Machine

/-! ## The ready invariant -/

/-- Settles O41: the reset state has been reset, and lists no edge. -/
theorem readyAtReset : Obligations.ReadyAtReset := ⟨rfl, nofun⟩

theorem ready_of_step {s t : State} (hs : s.Ready) (h : step s = .next t) : t.Ready := by
  obtain ⟨-, hwf⟩ := hs
  obtain ⟨-, hinputs, hseen⟩ := step_keeps h
  exact ⟨hseen, fun e he => hwf e (List.mem_of_mem_tail (hinputs ▸ he))⟩

/-- What is true of the idle edge and of every edge on the host's list is true of the next edge. -/
theorem edge_of_forall {P : Edge → Prop} {s : State} (hidle : P idleEdge) (h : ∀ e ∈ s.inputs.head?, P e) :
    P s.edge := by
  rw [State.edge, List.headD_eq_head?_getD]
  cases hhead : s.inputs.head? with
  | none => exact hidle
  | some e => exact h e hhead

theorem edge_wf_of_ready {s : State} (hs : s.Ready) : s.edge.wf = true := by
  obtain ⟨-, hwf⟩ := hs
  exact edge_of_forall (P := (·.wf = true)) rfl fun e he => hwf e (List.mem_of_mem_head? he)

/-- On a block that has been reset an edge within the contract breaks no duty of the host. -/
theorem not_breaksContract_of_wf {s : State} (hs : s.resetSeen = true) (hwf : s.edge.wf = true) :
    ¬ s.breaksContract := by
  rintro ⟨hrst, hbreach⟩
  simp only [Edge.wf, hrst, Edge.noCollision, Edge.writeSelectOk, Bool.false_or, Bool.and_eq_true] at hwf
  obtain ⟨hcol, hsel⟩ := hwf
  obtain hunseen | ⟨hexec, hwr⟩ | ⟨hwr, hreserved⟩ := hbreach
  · simp [hs] at hunseen
  · simp [hexec, hwr] at hcol
  · simp [hwr] at hsel
    omega

theorem step_next_of_ready {s : State} (hs : s.Ready) : ∃ t, step s = .next t :=
  step_next_of_not_breaksContract (not_breaksContract_of_wf hs.1 (edge_wf_of_ready hs))

/-- Settles O42: the step keeps what is left of the host's list, and a ready block breaks no duty. -/
theorem readyKeptByEveryStep : Obligations.ReadyKeptByEveryStep := by
  unfold Obligations.ReadyKeptByEveryStep
  exact ⟨fun _ _ => ready_of_step, fun _ => step_next_of_ready⟩

/-! ## Runs -/

/-- Settles O43: by induction on `k`, each edge a step from a ready state to a ready state. -/
theorem readyBlockRunsForever : Obligations.ReadyBlockRunsForever := by
  unfold Obligations.ReadyBlockRunsForever
  intro k
  induction k with
  | zero => exact fun s hs => ⟨s, rfl, hs, rfl, rfl⟩
  | succ k ih =>
    intro s hs
    obtain ⟨u, hu⟩ := step_next_of_ready hs
    obtain ⟨hparams, hinputs, -⟩ := step_keeps hu
    obtain ⟨t, ht, hready, htparams, htinputs⟩ := ih u (ready_of_step hs hu)
    refine ⟨t, (run_succ_of_step hu k).trans ht, hready, htparams.trans hparams, ?_⟩
    rw [htinputs, hinputs, List.drop_tail]

theorem run_params {k : Nat} {s t : State} (h : run k s = .next t) : t.params = s.params :=
  run_keeps (P := (·.params = s.params)) (fun _ _ hu hstep => (step_params hstep).trans hu) k s t rfl h

theorem run_resetSeen {k : Nat} {s t : State} (hs : s.resetSeen = true) (h : run k s = .next t) :
    t.resetSeen = true :=
  run_keeps (P := (·.resetSeen = true)) (fun _ _ _ hstep => step_resetSeen hstep) k s t hs h

/-- Settles O44: both are invariants of the step. -/
theorem parametersNeverChange : Obligations.ParametersNeverChange := by
  unfold Obligations.ParametersNeverChange
  exact fun _ _ _ h => ⟨run_params h, fun hs => run_resetSeen hs h⟩

/-- The condition of I1 on one edge: it resets, or it executes nothing, or it executes an implemented word. -/
def EdgeDone (p : Params) (e : Edge) : Prop :=
  e.rst = true ∨ e.execValid = false ∨ implemented p e.insn = true

theorem unimpl_of_edgeDone {s : State} (h : EdgeDone s.params s.edge) : s.unimpl = false := by
  obtain hrst | hexec | himpl := h
  · exact unimpl_of_reset hrst
  · exact unimpl_of_not_exec hexec
  · exact unimpl_of_implemented himpl

theorem edgeDone_edge {s : State} {k : Nat} (h : ∀ e ∈ s.inputs.take (k + 1), EdgeDone s.params e) :
    EdgeDone s.params s.edge := by
  refine edge_of_forall (.inr (.inl rfl)) fun e he => h e (List.mem_of_mem_head? ?_)
  rw [List.head?_take, if_neg k.succ_ne_zero]
  exact he

/-- Settles O45: by induction on `k`; the next edge shows `unimpl` = 0, and the condition on the others is that of
the next state. -/
theorem wiredRunIsDoneThroughout : Obligations.WiredRunIsDoneThroughout := by
  unfold Obligations.WiredRunIsDoneThroughout
  intro k
  induction k with
  | zero => exact fun _ _ _ => trivial
  | succ k ih =>
    intro s hs hdone
    obtain ⟨t, ht⟩ := step_next_of_ready hs
    obtain ⟨hparams, hinputs, -⟩ := step_keeps ht
    refine ⟨t, ht, ?report, ih t (ready_of_step hs ht) fun e he => ?further⟩
    case report =>
      rw [step_report ht, unimpl_of_edgeDone (edgeDone_edge hdone)]
      rfl
    case further =>
      rw [hinputs, ← List.drop_one, List.take_drop, Nat.add_comm] at he
      rw [hparams]
      exact hdone e (List.mem_of_mem_drop he)

end Sys2Proof.Machine
end

section
/-! PROOFS. The instructions on a block that has been reset: the seven SUB (spec/43_execute.md R105 to R111), the
flags that no instruction reads (spec/10_state.md R28), the edge that runs an instruction (R94), two dependent
ones in a row (R134); and the state after reset (R33). -/

namespace Sys2Proof.Machine

open Sys2Proof.Claims

/-! ## The commit of a subtraction, in natural-number arithmetic (R92, R97) -/

theorem subResult_eq_ofNat_mod (a v : Byte) :
    subResult a v = BitVec.ofNat 8 ((a.toNat + 256 - v.toNat) % 256) :=
  BitVec.eq_of_toNat_eq (by simp [subResult_toNat])

theorem subFlags_z_iff_mod (a v : Byte) : (subFlags a v).z = true ↔ (a.toNat + 256 - v.toNat) % 256 = 0 := by
  rw [subFlags_z_iff, ← BitVec.toNat_inj, subResult_toNat]
  rfl

theorem subFlags_eq_decide (a v : Byte) : subFlags a v =
    { z := decide ((a.toNat + 256 - v.toNat) % 256 = 0)
      n := true
      h := decide (a.toNat % 16 < v.toNat % 16)
      cy := decide (a.toNat < v.toNat) } :=
  (Flags.mk.injEq ..).mpr ⟨eq_decide_of_iff (subFlags_z_iff_mod a v), rfl, eq_decide_of_iff (subFlags_h_iff a v),
    eq_decide_of_iff (subFlags_cy_iff a v)⟩

theorem commit_sub_eq_subtracted (s : State) (v : Byte) : s.commit (alu .sub s.a v) = subtracted s v := by
  rw [commit_eq, subtracted, ← subResult_eq_ofNat_mod, ← subFlags_eq_decide]
  rfl

/-- The row of a SUB, whatever its selector; no selector is in `P_SUB_SELECTORS` by default. -/
theorem subRow_of_op {i : Instr} (hop : i.op = .sub) :
    SubRow i (encode i) (inSet · i.sel) (·.reg i.sel) := by
  have hwired (p : Params) : wired p i.op i.sel = inSet p.subSelectors i.sel := by rw [hop]; rfl
  refine ⟨(decode_eq_ok_iff _ i).2 rfl, ?default, fun s hs => ⟨?whereWired, ?whereNot⟩⟩
  case default => cases i.sel <;> rfl
  case whereWired =>
    intro hsel
    rw [exec_of_wired hs ((hwired _).trans hsel), hop, commit_sub_eq_subtracted]
  case whereNot =>
    intro hsel
    exact exec_of_not_wired hs ((hwired _).trans hsel)

/-- Settles O17: each row is the general one at its own selector. -/
theorem subRowsExecute : Obligations.SubRowsExecute := by
  unfold Obligations.SubRowsExecute
  refine ⟨?b, ?c, ?d, ?e, ?h, ?l, ?a⟩ <;> exact subRow_of_op rfl

/-! ## No instruction reads a flag (R28) -/

/-- A commit overwrites whatever the flags were. -/
theorem commit_setFlags (s : State) (f : Flags) (out : AluOut) : (s.setFlags f).commit out = s.commit out := rfl

/-- Settles O19: the operands are registers, the commit writes all four flags, and the report none. -/
theorem instructionsReadNoFlag : Obligations.InstructionsReadNoFlag := by
  unfold Obligations.InstructionsReadNoFlag
  intro i s t f h
  change ∃ u, exec i (s.setFlags f) = .next u ∧ _
  rw [exec_eq_executePair] at h
  obtain ⟨hs, ⟨hw, rfl⟩ | ⟨hw, rfl⟩⟩ := executePair_next h
  · refine ⟨_, exec_of_wired (s := s.setFlags f) hs hw, ?_⟩
    simp [commit_setFlags, hw]
  · refine ⟨_, exec_of_not_wired (s := s.setFlags f) hs hw, ?_⟩
    simp [notImplemented, hw]

/-! ## The edge that runs an instruction (R94) -/

/-- An execute edge whose word decodes runs the instruction on the state with that edge taken off. -/
theorem step_of_decode {s : State} {i : Instr} (hx : Executes s) (hi : decode s.edge.insn = .ok i) :
    step s = exec i s.advance := by
  obtain ⟨hrst, hexec, hwr⟩ := hx
  rw [step_execute hrst hexec hwr, executeWord_of_decode _ hi]

theorem decode_of_decodeTableWord {nbits w : Nat} {i : Instr} (h : decodeTableWord nbits w = some i) :
    decode (tableWord nbits w) = .ok i := by
  unfold decodeTableWord at h
  split at h
  · cases hdec : decode (tableWord nbits w) <;> simp_all
  · cases h

/-- Settles O20: both halves are execute edges, the second one driven by the table word. -/
theorem stepRunsDecodedInstruction : Obligations.StepRunsDecodedInstruction := by
  unfold Obligations.StepRunsDecodedInstruction
  refine ⟨?listed, ?driven⟩
  case listed =>
    intro s e rest i hin hrst hexec hwr hi
    obtain rfl : s.edge = e := edge_of_inputs _ _ rest hin
    rw [step_of_decode ⟨hrst, hexec, hwr⟩ hi, State.advance, hin, List.tail_cons]
  case driven =>
    intro s nbits w i hi
    exact step_of_decode (s := s.withFetchWord nbits w) ⟨rfl, rfl, rfl⟩ (decode_of_decodeTableWord hi)

/-! ## Two dependent additions (R134) -/

theorem step_addAC {s : State} {rest : List Edge} (hs : s.resetSeen = true) (hw : s.params.wiredAdd.c = true)
    (hin : s.inputs = executeEdge 0x81#8 :: rest) : step s = .next (added { s with inputs := rest } s.c) := by
  obtain ⟨hlisted, -⟩ := stepRunsDecodedInstruction
  obtain ⟨-, hrow, -⟩ := addRowsExecute
  obtain ⟨hdec, -, hexec⟩ := hrow
  rw [hlisted s _ rest .addAC hin rfl rfl rfl hdec]
  exact (hexec { s with inputs := rest } hs).1 hw

theorem added_a_toNat (s : State) (v : Byte) : (added s v).a.toNat = (s.a.toNat + v.toNat) % 256 := by
  simp [added]

/-- Settles O47: the second addition reads the A that the first one wrote, and the low nibble of that A does not
see the reduction modulo 256. -/
theorem dependentAddsNeedNoSpacing : Obligations.DependentAddsNeedNoSpacing := by
  unfold Obligations.DependentAddsNeedNoSpacing
  intro s rest hs hw hin
  have hfirst := step_addAC hs hw hin
  have hsecond := step_addAC (s := added { s with inputs := executeEdge 0x81#8 :: rest } s.c) hs hw rfl
  have hrun := (run_succ_of_step hfirst 1).trans (run_succ_of_step hsecond 0)
  have hsum : ((s.a.toNat + s.c.toNat) % 256 + s.c.toNat) % 256 = (s.a.toNat + 2 * s.c.toNat) % 256 := by omega
  have hnibble : (s.a.toNat + s.c.toNat) % 256 % 16 = (s.a.toNat + s.c.toNat) % 16 := by omega
  refine ⟨_, hrun, ?a, rfl, rfl, ?f⟩
  case a =>
    rw [added_a_toNat, added_a_toNat]
    exact hsum
  case f =>
    simp only [added, BitVec.toNat_ofNat, Nat.reducePow, Nat.mod_mod, hsum, hnibble]

/-! ## The state after reset (R33) -/

/-- Settles O25: the reset state is written out, and its views are closed terms. -/
theorem resetStateIsAllZero : Obligations.ResetStateIsAllZero := by
  unfold Obligations.ResetStateIsAllZero
  exact ⟨rfl, rfl, rfl, rfl, rfl, rfl⟩

end Sys2Proof.Machine
end

section
/-! PROOFS. Host writes: how much of `wr_data` each uses (spec/30_encoding.md R58), what writing twice does
(spec/20_memory.md R41), and who writes the data registers (spec/10_state.md R20). -/

namespace Sys2Proof.Machine

open Sys2Proof.Claims

/-! ## A driven host write (R66) -/

theorem step_drive_write (s : State) {e : Edge} (hrst : e.rst = false) (hexec : e.execValid = false)
    (hwr : e.wrEn = true) : step (s.drive e) = hostWrite e.wrSel e.wrData s :=
  step_write (s := s.drive e) hrst hexec hwr

/-! ## How much of `wr_data` a write uses (R58) -/

/-- An 8-bit write reads `wr_data[7:0]` alone. -/
theorem writeRule_congr_lowByte {sel : BitVec 4} {v w : Word} (s : State) (hsel : sel.toNat ≤ 0x7)
    (hlow : lowByte v = lowByte w) : writeRule sel v s = writeRule sel w s := by
  unfold writeRule
  split
  case h_9 | h_10 | h_11 | h_12 => omega
  case h_13 => rfl
  all_goals simp only [writeA, writeF, writeB, writeC, writeD, writeE, writeH, writeL, hlow]

/-- A write to BC, DE or HL can be read back whole. -/
theorem exists_view_of_pairWrite {sel : BitVec 4} (hlo : 0x9 ≤ sel.toNat) (hhi : sel.toNat ≤ 0xB) :
    ∃ view : State → Word, ∀ v s, s.resetSeen = true → ∃ t, hostWrite sel v s = .next t ∧ view t = v := by
  obtain rfl | rfl | rfl : sel = 0x9#4 ∨ sel = 0xA#4 ∨ sel = 0xB#4 := by bv_omega
  · exact ⟨State.bc, fun v s hs => ⟨_, hostWrite_of_writeRule hs rfl, writeBC_bc v s⟩⟩
  · exact ⟨State.de, fun v s hs => ⟨_, hostWrite_of_writeRule hs rfl, writeDE_de v s⟩⟩
  · exact ⟨State.hl, fun v s hs => ⟨_, hostWrite_of_writeRule hs rfl, writeHL_hl v s⟩⟩

/-- Settles O36: the 8-bit write rules read the low byte alone, and a pair gives back all that was written. -/
theorem writeDataWidths : Obligations.WriteDataWidths := by
  unfold Obligations.WriteDataWidths
  intro s e x hs hrst hexec hwr hx
  have hstep : step (s.drive x) = hostWrite e.wrSel x.wrData s := by
    rw [hx]
    exact step_drive_write s hrst hexec hwr
  rw [step_drive_write s hrst hexec hwr, hstep]
  refine ⟨fun hsel hlow => ?byte, fun hlo hhi heq => ?pair⟩
  case byte =>
    have hbyte : lowByte e.wrData = lowByte x.wrData := by rw [lowByte_eq_ofNat_mod, lowByte_eq_ofNat_mod, hlow]
    simp only [hostWrite, afterReset_seen hs]
    rw [writeRule_congr_lowByte s hsel hbyte]
  case pair =>
    obtain ⟨view, hview⟩ := exists_view_of_pairWrite hlo hhi
    obtain ⟨t, ht, hviewt⟩ := hview e.wrData s hs
    obtain ⟨u, hu, hviewu⟩ := hview x.wrData s hs
    rw [ht, hu] at heq
    rw [← hviewt, ← hviewu, Host.Outcome.next.inj heq]

/-! ## Writing twice (R41) -/

/-- A write rule is stable on the state that it has made, whatever that state's report. -/
theorem writeRule_again {sel : BitVec 4} {v : Word} {s u : State} (h : writeRule sel v s = some u) (p : Report) :
    writeRule sel v (u.setReport p) = some (u.setReport p) := by
  unfold writeRule at h ⊢
  split at h
  case h_13 => cases h
  all_goals
    rename_i hsel
    obtain rfl := Option.some.inj h
    rfl

theorem highByte_clear_lowNibble (v : Word) : highByte (v &&& 0xFFF0#16) = highByte v := by
  simp only [highByte, BitVec.extractLsb'_and]
  exact BitVec.and_allOnes

theorem fromByte_lowByte_clear_lowNibble (v : Word) :
    Flags.fromByte (lowByte (v &&& 0xFFF0#16)) = Flags.fromByte (lowByte v) := by
  simp [Flags.fromByte, lowByte]

/-- The flags take nothing from bits 3..0 (R62). -/
theorem writeRule_clear_lowNibble {sel : BitVec 4} (hsel : sel = 0x1#4 ∨ sel = 0x8#4) (v : Word) (s : State) :
    writeRule sel (v &&& 0xFFF0#16) s = writeRule sel v s := by
  obtain rfl | rfl := hsel
  · simp [writeRule, writeF, fromByte_lowByte_clear_lowNibble]
  · simp [writeRule, writeAF, fromByte_lowByte_clear_lowNibble, highByte_clear_lowNibble]

/-- Settles O37: the write rule is stable on its own result, and the two that write the flags drop the low nibble. -/
theorem hostWritesAreIdempotent : Obligations.HostWritesAreIdempotent := by
  unfold Obligations.HostWritesAreIdempotent
  intro s t e x hrst hexec hwr h
  rw [step_drive_write s hrst hexec hwr] at h
  obtain ⟨hs, u, hu, rfl⟩ := hostWrite_next h
  obtain ⟨-, hseen, -⟩ := writeRule_keeps hu
  refine ⟨?twice, ?nibble⟩
  case twice =>
    rw [step_drive_write _ hrst hexec hwr]
    exact (hostWrite_of_writeRule (s := u.setReport .done) (hseen.trans hs) (writeRule_again hu .done)).trans rfl
  case nibble =>
    rintro hsel rfl
    rw [step_drive_write (e := { e with wrData := e.wrData &&& 0xFFF0#16 }) s hrst hexec hwr]
    exact hostWrite_of_writeRule hs ((writeRule_clear_lowNibble hsel _ s).trans hu)

/-! ## Who writes the data registers (R20, R57) -/

/-- The select code that writes a register alone (R57). -/
def byteSelect : Reg8 → BitVec 4
  | .a => 0x0#4
  | .b => 0x2#4
  | .c => 0x3#4
  | .d => 0x4#4
  | .e => 0x5#4
  | .h => 0x6#4
  | .l => 0x7#4

/-- The select code that writes the pair a register is part of (R57). -/
def pairSelect : Reg8 → BitVec 4
  | .a => 0x8#4
  | .b | .c => 0x9#4
  | .d | .e => 0xA#4
  | .h | .l => 0xB#4

/-- The byte of `wr_data` that a write of the pair gives a register (R80 to R83). -/
def pairByte : Reg8 → Word → Byte
  | .a | .b | .d | .h => highByte
  | .c | .e | .l => lowByte

/-- What each register is after a write rule: no rule writes one that its select code does not name. -/
theorem writeRule_reg {sel : BitVec 4} {v : Word} {s t : State} (h : writeRule sel v s = some t) (r : Reg8) :
    t.reg r = if sel = byteSelect r then lowByte v else if sel = pairSelect r then pairByte r v else s.reg r := by
  unfold writeRule at h
  split at h
  case h_13 => cases h
  all_goals
    rename_i hsel
    obtain rfl := Option.some.inj h
    simp only [← BitVec.toNat_inj (x := sel), hsel]
    cases r <;> rfl

theorem select_of_writeRule_reg_ne {sel : BitVec 4} {v : Word} {s t : State} (h : writeRule sel v s = some t)
    {r : Reg8} (hne : t.reg r ≠ s.reg r) : sel = byteSelect r ∨ sel = pairSelect r := by
  by_contra hsel
  obtain ⟨hbyte, hpair⟩ := not_or.1 hsel
  exact hne (by rw [writeRule_reg h, if_neg hbyte, if_neg hpair])

theorem reg_commit (s : State) (out : AluOut) {r : Reg8} (hr : r ≠ .a) : (s.commit out).reg r = s.reg r := by
  cases r
  case a => exact absurd rfl hr
  all_goals rfl

/-- Without `rst`, a register changes at a host write that names it or its pair, or, if it is A, at an implemented
execute. -/
theorem step_reg_changed {s t : State} (h : step s = .next t) (hrst : s.edge.rst = false) {r : Reg8}
    (hne : t.reg r ≠ s.reg r) :
    (r = .a ∧ Executes s ∧ implemented s.params s.edge.insn = true) ∨
      (Writes s ∧ (s.edge.wrSel = byteSelect r ∨ s.edge.wrSel = pairSelect r)) := by
  obtain ⟨hr, -⟩ | ⟨-, -, ⟨hexec, hwr, i, hi, hw, rfl⟩ | ⟨-, -, -, rfl⟩ | ⟨hexec, hwr, u, hu, rfl⟩ | ⟨-, -, rfl⟩⟩ :=
    step_cases h
  · simp [hrst] at hr
  · refine .inl ⟨?_, ⟨hrst, hexec, hwr⟩, (implemented_of_decode _ hi).trans hw⟩
    by_contra hr
    exact hne ((reg_commit _ _ hr).trans (reg_advance ..))
  · simp at hne
  · rw [reg_setReport, ← reg_advance s] at hne
    exact .inr ⟨⟨hrst, hexec, hwr⟩, select_of_writeRule_reg_ne hu hne⟩
  · simp at hne

theorem step_reg_changed_of_ne_a {s t : State} (h : step s = .next t) (hrst : s.edge.rst = false) {r : Reg8}
    (hr : r ≠ .a) (hne : t.reg r ≠ s.reg r) :
    Writes s ∧ (s.edge.wrSel = byteSelect r ∨ s.edge.wrSel = pairSelect r) :=
  (step_reg_changed h hrst hne).resolve_left fun ⟨ha, _⟩ => hr ha

/-- Settles O39: the general rule at each register. -/
theorem registerWriters : Obligations.RegisterWriters := by
  unfold Obligations.RegisterWriters
  intro s t h hrst
  refine ⟨fun hne => ?a, ?b, ?c, ?d, ?e, ?h, ?l⟩
  case a => exact (step_reg_changed (r := .a) h hrst hne).imp_left And.right
  case b => exact step_reg_changed_of_ne_a (r := .b) h hrst nofun
  case c => exact step_reg_changed_of_ne_a (r := .c) h hrst nofun
  case d => exact step_reg_changed_of_ne_a (r := .d) h hrst nofun
  case e => exact step_reg_changed_of_ne_a (r := .e) h hrst nofun
  case h => exact step_reg_changed_of_ne_a (r := .h) h hrst nofun
  case l => exact step_reg_changed_of_ne_a (r := .l) h hrst nofun

end Sys2Proof.Machine
end

section
/-! PROOFS. Over whole runs the flags reach neither a data register nor an outcome (spec/10_state.md R28): two states
that differ in the flags alone are `s` and `s.setFlags f`, and every operation keeps such a pair. -/

namespace Sys2Proof.Machine

/-! ## Pairs of states that differ in the flags alone -/

theorem eq_setFlags_of_sameButFlags {s u : State} (h : SameButFlags s u) (hreport : s.report = u.report) :
    u = s.setFlags u.f := by
  refine Eq.trans h ?_
  rw [← hreport]
  rfl

theorem sameOutcome_setFlags (s : State) (f : Flags) : SameOutcomeButFlags (.next s) (.next (s.setFlags f)) :=
  ⟨rfl, rfl⟩

theorem sameOutcome_refused (r : Refusal) : SameOutcomeButFlags (.refused r) (.refused r) := rfl

/-- An outcome is the same but for the flags as itself. -/
theorem sameOutcome_refl (o : StepOutcome) : SameOutcomeButFlags o o := by
  cases o with
  | next s => exact sameOutcome_setFlags s s.f
  | refused r => exact sameOutcome_refused r
  | fault r => nomatch r

theorem sameOutcome_cases {p q : StepOutcome} (h : SameOutcomeButFlags p q) :
    (∃ t g, p = .next t ∧ q = .next (t.setFlags g)) ∨ ∃ r, p = .refused r ∧ q = .refused r := by
  cases p with
  | fault r => nomatch r
  | next t =>
    cases q with
    | fault r => nomatch r
    | refused r => exact h.elim
    | next u =>
      obtain ⟨hsame, hreport⟩ := h
      exact .inl ⟨t, u.f, rfl, congrArg _ (eq_setFlags_of_sameButFlags hsame hreport.symm)⟩
  | refused r =>
    cases q with
    | fault r => nomatch r
    | next u => exact h.elim
    | refused r' => exact .inr ⟨r, rfl, congrArg _ (Eq.symm h)⟩

/-! ## The operations -/

section

variable (s : State) (f : Flags)

/-- Whether the block has been reset is no flag. -/
theorem afterReset_setFlags {act : State → StepOutcome} (hact : SameOutcomeButFlags (act s) (act (s.setFlags f))) :
    SameOutcomeButFlags (afterReset s act) (afterReset (s.setFlags f) act) := by
  cases hs : s.resetSeen
  case false =>
    rw [afterReset_unseen hs, afterReset_unseen (s := s.setFlags f) hs]
    exact sameOutcome_refused _
  case true =>
    rw [afterReset_seen hs, afterReset_seen (s := s.setFlags f) hs]
    exact hact

theorem unimplementedStep_setFlags : SameOutcomeButFlags (unimplementedStep s) (unimplementedStep (s.setFlags f)) :=
  afterReset_setFlags s f (sameOutcome_setFlags (s.setReport .unimplemented) f)

theorem idleStep_setFlags : SameOutcomeButFlags (idleStep s) (idleStep (s.setFlags f)) :=
  afterReset_setFlags s f (sameOutcome_setFlags (s.setReport .done) f)

/-- A wired instruction overwrites the flags, and any other keeps them; neither reads one. -/
theorem exec_setFlags (i : Instr) : SameOutcomeButFlags (exec i s) (exec i (s.setFlags f)) := by
  simp only [exec_eq_executePair]
  refine afterReset_setFlags s f ?_
  simp only [setFlags_params, setFlags_a, reg_setFlags, commit_setFlags]
  split
  · exact sameOutcome_refl _
  · exact sameOutcome_setFlags (s.setReport .unimplemented) f

theorem executeWord_setFlags (w : Byte) : SameOutcomeButFlags (executeWord w s) (executeWord w (s.setFlags f)) := by
  unfold executeWord
  split
  · exact exec_setFlags s f _
  · exact unimplementedStep_setFlags s f

/-- A write rule writes the same registers whatever the flags. -/
theorem writeRule_setFlags (sel : BitVec 4) (v : Word) :
    ∃ g, writeRule sel v (s.setFlags f) = (writeRule sel v s).map (·.setFlags g) := by
  unfold writeRule
  split
  case h_2 | h_9 => exact ⟨Flags.fromByte (lowByte v), rfl⟩
  all_goals exact ⟨f, rfl⟩

theorem hostWrite_setFlags (sel : BitVec 4) (v : Word) :
    SameOutcomeButFlags (hostWrite sel v s) (hostWrite sel v (s.setFlags f)) := by
  refine afterReset_setFlags s f ?_
  obtain ⟨g, hg⟩ := writeRule_setFlags s f sel v
  rw [hg]
  cases writeRule sel v s with
  | none => exact sameOutcome_refused _
  | some t => exact sameOutcome_setFlags (t.setReport .done) g

/-- One edge, in the order of R119. -/
theorem edgeStep_setFlags (e : Edge) : SameOutcomeButFlags (edgeStep e s) (edgeStep e (s.setFlags f)) := by
  unfold edgeStep
  split_ifs
  case pos => exact sameOutcome_refl _
  case pos => exact sameOutcome_refused _
  case pos => exact executeWord_setFlags s f _
  case pos => exact hostWrite_setFlags s f _ _
  case neg => exact idleStep_setFlags s f

theorem step_setFlags : SameOutcomeButFlags (step s) (step (s.setFlags f)) := edgeStep_setFlags s.advance f s.edge

end

/-! ## Whole runs -/

theorem run_setFlags (k : Nat) (s : State) (f : Flags) :
    SameOutcomeButFlags (run k s) (run k (s.setFlags f)) := by
  induction k generalizing s f with
  | zero => exact sameOutcome_setFlags s f
  | succ k ih =>
    rw [run_succ, run_succ]
    obtain ⟨t, g, ht, hu⟩ | ⟨r, hs, hu⟩ := sameOutcome_cases (step_setFlags s f)
    · rw [ht, hu]
      exact ih t g
    · rw [hs, hu]
      exact sameOutcome_refused r

/-- Settles O46: the second state is the first one with other flags, and a run keeps such a pair edge by edge. -/
theorem flagsNeverReachData : Obligations.FlagsNeverReachData := by
  unfold Obligations.FlagsNeverReachData
  intro k s u hsame hreport
  rw [eq_setFlags_of_sameButFlags hsame hreport]
  exact run_setFlags k s u.f

end Sys2Proof.Machine
end
